-- ==== Sys2Proof/Word.lean ====
section
/-! DEFINITION. The words of the hardware: a byte and a 16-bit value (00_scope.md rule R9).
Cursors, addresses, lengths and counts are natural numbers, so they have no word type. -/

namespace Sys2Proof

/-- A byte: 8 bits (R9). -/
abbrev Byte := BitVec 8

/-- A "16-bit value": a chunk header or a copy token as it is assembled (R9). -/
abbrev Half := BitVec 16

end Sys2Proof
end

