-- ==== Sys2Proof/Config.lean ====
section
/-! DEFINITION. What an implementation fixes (00_scope.md rule R8) and the free values: what the spec
leaves unspecified (10_state.md rules R35, R36; 60_exceptions.md rule R207). -/

namespace Sys2Proof

/-- The named parameters of R8, fixed for the machine. `none` is "unbounded", each one's default.
Assumption log 9. -/
structure Params where
  /-- `IN_LEN_MAX`: the largest input length the implementation accepts (D4). -/
  inLenMax : Option Nat := none
  /-- `OUT_CAPACITY`: how many bytes OUT can hold (D3). -/
  outCapacity : Option Nat := none
  /-- `CURSOR_W`: the width in bits of each cursor (D2). -/
  cursorW : Option Nat := none
  deriving DecidableEq, Repr

/-- FREE VALUE (log 3, 4, 5): a natural number the spec leaves unspecified. Nothing constrains it. -/
opaque Config.freeNat : Nat → Nat

/-- FREE VALUE (log 3, 4, 5): a byte the spec leaves unspecified. -/
opaque Config.freeByte : Nat → Byte

/-- FREE VALUE (log 3, 5): the content of a buffer the spec leaves unspecified, as address and byte pairs
in no particular order. -/
opaque Config.freeCells : Nat → List (Nat × Byte)

end Sys2Proof
end

