-- ==== Sys2Proof/Syntax.lean ====
section
/-! DEFINITION. The elements of the compressed stream, which are the instructions of this hardware
(00_scope.md rule R3, 30_encoding.md rule R80): one constructor per row of spec/opcode_table.json. -/

namespace Sys2Proof

/-- A stream element with its fields, as the formats of 30_encoding.md lay them out. -/
inductive Instr where
  /-- SIG, format S (R82): the byte at address 0. Any byte is read there; 0x01 alone is legal (R89). -/
  | sig (b : Byte)
  /-- HDR_RAW, format H with bit 15 = 0 (R83): ignored bits `x` (14:12), size field `sz` (11:0). -/
  | hdrRaw (x : BitVec 3) (sz : BitVec 12)
  /-- HDR_CMP, format H with bit 15 = 1 (R83). -/
  | hdrCmp (x : BitVec 3) (sz : BitVec 12)
  /-- FLAG, format F (R84): bit `i` governs slot `i`. -/
  | flag (f : Byte)
  /-- LIT, format L (R85): the data byte. -/
  | lit (b : Byte)
  /-- COPY_B4, format T at bitCount 4 (R87): offset field `o`, length field `l`. -/
  | copyB4 (o : BitVec 4) (l : BitVec 12)
  /-- COPY_B5, format T at bitCount 5 (R87): offset field `o`, length field `l`. -/
  | copyB5 (o : BitVec 5) (l : BitVec 11)
  /-- COPY_B6, format T at bitCount 6 (R87): offset field `o`, length field `l`. -/
  | copyB6 (o : BitVec 6) (l : BitVec 10)
  /-- COPY_B7, format T at bitCount 7 (R87): offset field `o`, length field `l`. -/
  | copyB7 (o : BitVec 7) (l : BitVec 9)
  /-- COPY_B8, format T at bitCount 8 (R87): offset field `o`, length field `l`. -/
  | copyB8 (o : BitVec 8) (l : BitVec 8)
  /-- COPY_B9, format T at bitCount 9 (R87): offset field `o`, length field `l`. -/
  | copyB9 (o : BitVec 9) (l : BitVec 7)
  /-- COPY_B10, format T at bitCount 10 (R87): offset field `o`, length field `l`. -/
  | copyB10 (o : BitVec 10) (l : BitVec 6)
  /-- COPY_B11, format T at bitCount 11 (R87): offset field `o`, length field `l`. -/
  | copyB11 (o : BitVec 11) (l : BitVec 5)
  /-- COPY_B12, format T at bitCount 12 (R87): offset field `o`, length field `l`. -/
  | copyB12 (o : BitVec 12) (l : BitVec 4)
  /-- COPY_B13, format T at bitCount 13 (R87): offset field `o`, length field `l`. -/
  | copyB13 (o : BitVec 13) (l : BitVec 3)
  /-- COPY_B14, format T at bitCount 14 (R87): offset field `o`, length field `l`. -/
  | copyB14 (o : BitVec 14) (l : BitVec 2)
  /-- COPY_B15, format T at bitCount 15 (R87): offset field `o`, length field `l`. -/
  | copyB15 (o : BitVec 15) (l : BitVec 1)
  deriving DecidableEq, Repr

end Sys2Proof
end

