-- ==== Sys2Proof/WellFormed.lean ====
section
/-! DEFINITION. Which elements are well formed. The one illegal encoding of the format is a signature byte other
than 0x01 (30_encoding.md rule R89); every field of every other element takes every value of its width. -/

namespace Sys2Proof

/-- `SIGNATURE` (00_scope.md rule R7): the required value of input byte 0. -/
def signatureByte : Byte := 0x01#8

/-- The check of R89. -/
def Instr.wellFormed : Instr → Bool
  | .sig b => b == signatureByte
  | _ => true

end Sys2Proof
end

