-- ==== Sys2Proof/Decode.lean ====
section
/-! DEFINITION. Decoding and encoding of the stream elements (30_encoding.md). An element's kind is not in its
own bits: decoding is by context (R80), so `decode` takes the context beside the bytes. -/

namespace Sys2Proof

/-- Where the decoder stands when it takes an element (the column "decoded when" and "selected by" of R80).
For a copy token the split `bitCount` of the position is part of the context (R86). -/
inductive Context where
  | signature
  | chunk
  | group
  | literal
  | copy (bitCount : Nat)
  deriving DecidableEq, Repr

/-- Why a byte string is not an element of a context. -/
inductive DecodeError where
  /-- There are fewer bytes than the element has. -/
  | truncated
  /-- No row of the opcode table has this split: the table has bitCount 4 to 15 (R87). -/
  | noSuchSplit (bitCount : Nat)
  deriving DecidableEq, Repr

/-- The length in bytes of the element of a context, known before it is read (R81). The payload of a raw
chunk is read by the element itself and is not counted. -/
def Context.width : Context → Nat
  | .signature | .group | .literal => 1
  | .chunk | .copy _ => 2

/-- Two bytes as a 16-bit value, the byte at the lower address low (R56). -/
def littleEndian (lo hi : Byte) : Half := hi ++ lo

/-- The two bytes of a 16-bit value in stream order (R56). -/
def littleEndianBytes (h : Half) : List Byte := [h.extractLsb' 0 8, h.extractLsb' 8 8]

/-- Format H (R83): bit 15 selects the row, bits 14:12 are `x`, bits 11:0 are `sz`. -/
def decodeHeader (h : Half) : Instr :=
  if h.getLsbD 15 then .hdrCmp (h.extractLsb' 12 3) (h.extractLsb' 0 12)
  else .hdrRaw (h.extractLsb' 12 3) (h.extractLsb' 0 12)

/-- Format T at each bit count (R86, R87): the high `bitCount` bits are `o`, the rest is `l`. -/
def decodeToken (bitCount : Nat) (t : Half) : Option Instr :=
  match bitCount with
  | 4 => some (.copyB4 (t.extractLsb' 12 4) (t.extractLsb' 0 12))
  | 5 => some (.copyB5 (t.extractLsb' 11 5) (t.extractLsb' 0 11))
  | 6 => some (.copyB6 (t.extractLsb' 10 6) (t.extractLsb' 0 10))
  | 7 => some (.copyB7 (t.extractLsb' 9 7) (t.extractLsb' 0 9))
  | 8 => some (.copyB8 (t.extractLsb' 8 8) (t.extractLsb' 0 8))
  | 9 => some (.copyB9 (t.extractLsb' 7 9) (t.extractLsb' 0 7))
  | 10 => some (.copyB10 (t.extractLsb' 6 10) (t.extractLsb' 0 6))
  | 11 => some (.copyB11 (t.extractLsb' 5 11) (t.extractLsb' 0 5))
  | 12 => some (.copyB12 (t.extractLsb' 4 12) (t.extractLsb' 0 4))
  | 13 => some (.copyB13 (t.extractLsb' 3 13) (t.extractLsb' 0 3))
  | 14 => some (.copyB14 (t.extractLsb' 2 14) (t.extractLsb' 0 2))
  | 15 => some (.copyB15 (t.extractLsb' 1 15) (t.extractLsb' 0 1))
  | _ => none

/-- The element at the head of a byte string in a context, and the bytes after it. Total on any bytes. -/
def decode : Context → List Byte → Except DecodeError (Instr × List Byte)
  | .signature, b :: rest => .ok (.sig b, rest)
  | .group, b :: rest => .ok (.flag b, rest)
  | .literal, b :: rest => .ok (.lit b, rest)
  | .chunk, lo :: hi :: rest => .ok (decodeHeader (littleEndian lo hi), rest)
  | .copy n, lo :: hi :: rest =>
    match decodeToken n (littleEndian lo hi) with
    | some i => .ok (i, rest)
    | none => .error (.noSuchSplit n)
  | _, _ => .error .truncated

/-- The context in which an element is decoded (R80). -/
def Instr.context : Instr → Context
  | .sig _ => .signature
  | .hdrRaw _ _ | .hdrCmp _ _ => .chunk
  | .flag _ => .group
  | .lit _ => .literal
  | .copyB4 _ _ => .copy 4
  | .copyB5 _ _ => .copy 5
  | .copyB6 _ _ => .copy 6
  | .copyB7 _ _ => .copy 7
  | .copyB8 _ _ => .copy 8
  | .copyB9 _ _ => .copy 9
  | .copyB10 _ _ => .copy 10
  | .copyB11 _ _ => .copy 11
  | .copyB12 _ _ => .copy 12
  | .copyB13 _ _ => .copy 13
  | .copyB14 _ _ => .copy 14
  | .copyB15 _ _ => .copy 15

/-- The 16-bit value of a header (format H, R83). -/
def headerWord (c : BitVec 1) (x : BitVec 3) (sz : BitVec 12) : Half := c ++ (x ++ sz)

/-- The bytes of an element in stream order, from the formats of R82 to R87. -/
def encode : Instr → List Byte
  | .sig b => [b]
  | .hdrRaw x sz => littleEndianBytes (headerWord 0#1 x sz)
  | .hdrCmp x sz => littleEndianBytes (headerWord 1#1 x sz)
  | .flag f => [f]
  | .lit b => [b]
  | .copyB4 o l => littleEndianBytes (o ++ l)
  | .copyB5 o l => littleEndianBytes (o ++ l)
  | .copyB6 o l => littleEndianBytes (o ++ l)
  | .copyB7 o l => littleEndianBytes (o ++ l)
  | .copyB8 o l => littleEndianBytes (o ++ l)
  | .copyB9 o l => littleEndianBytes (o ++ l)
  | .copyB10 o l => littleEndianBytes (o ++ l)
  | .copyB11 o l => littleEndianBytes (o ++ l)
  | .copyB12 o l => littleEndianBytes (o ++ l)
  | .copyB13 o l => littleEndianBytes (o ++ l)
  | .copyB14 o l => littleEndianBytes (o ++ l)
  | .copyB15 o l => littleEndianBytes (o ++ l)

/-- The context assumed for a table row's bits when nothing but the bits is given (log 13): the first row of
the table, in the table's order, whose width, `match` and `mask` fit (R92). A byte is SIG when it is 0x01 and
FLAG otherwise; 16 bits are a header. -/
def tableContext (nbits w : Nat) : Option Context :=
  match nbits with
  | 8 => if BitVec.ofNat 8 w = 0x01#8 then some .signature else some .group
  | 16 => some .chunk
  | _ => none

/-- A table row's bits as the bytes of the stream, lowest address first. -/
def tableBytes (nbits w : Nat) : List Byte :=
  match nbits with
  | 8 => [BitVec.ofNat 8 w]
  | 16 => littleEndianBytes (BitVec.ofNat 16 w)
  | _ => []

/-- The instruction the decoder reads from a table row's bits, in the context `tableContext` (log 13). -/
def decodeTableWord (nbits w : Nat) : Option Instr :=
  match tableContext nbits w with
  | none => none
  | some c =>
    match decode c (tableBytes nbits w) with
    | .ok (i, _) => some i
    | .error _ => none

end Sys2Proof
end

