-- ==== Sys2Proof/Machine/State.lean ====
section
/-! DEFINITION. The state of the hardware (10_state.md), as plain data, the reasons a step can stop, and the state
right after power-on. -/

namespace Sys2Proof.Machine

open Sys2Proof

/-- The sequencer state of R32. -/
inductive Phase where
  | idle | sig | chunk | group | token | done | fault
  deriving DecidableEq, Repr

/-- `FAULT_REASON` (R33; codes in 60_exceptions.md rule R205). -/
inductive FaultReason where
  | none | malformedSignature | outOfBounds | undefinedHelpData
  deriving DecidableEq, Repr

/-- The sub-cause of `FAULT_INFO` (R205). -/
inductive SubCause where
  | none | inputRead | outputRead | outputWrite
  deriving DecidableEq, Repr

/-- `FAULT_INFO` (R33, R205): a sub-cause and one natural number. -/
structure FaultInfo where
  subCause : SubCause
  number : Nat
  deriving DecidableEq, Repr

/-- A buffer: address and byte pairs, addresses strictly rising. An address that is not listed holds no value
(log 2). -/
abbrev Memory := List Host.Cell

/-- One act of the host at the block's interface (R33, R63, R232, R233; log 6). -/
inductive HostAct where
  /-- The host does nothing at this step. -/
  | pass
  /-- Write one byte of IN. -/
  | writeIn (a : Nat) (b : Byte)
  /-- Write the register `IN_LEN`. -/
  | writeInLen (n : Nat)
  /-- Write the 1-bit command `START`. -/
  | writeStart (v : BitVec 1)
  /-- Hardware reset. -/
  | hardReset
  deriving DecidableEq, Repr

/-- The whole state (R20) beside the machine's fixed parameters and two fields of the model's own. The cursors
carry the spec's short names (00_scope.md section 5). -/
structure State where
  /-- The parameters of 00_scope.md rule R8; no step changes them (R38; log 9). -/
  params : Params
  /-- `IN` (R21). -/
  inMem : Memory
  /-- `IN_LEN` (R33). -/
  inLen : Nat
  /-- `OUT` (R22). -/
  outMem : Memory
  /-- `compressedRecordEnd` (R24). -/
  cre : Nat
  /-- `compressedCurrent`, the program counter (R25). -/
  cc : Nat
  /-- `compressedChunkStart` (R26). -/
  ccs : Nat
  /-- `decompressedCurrent` (R27). -/
  dc : Nat
  /-- `decompressedChunkStart` (R28). -/
  dcs : Nat
  /-- `compressedEnd` (R31 a). -/
  ce : Nat
  /-- `flagByte` (R31 b). -/
  fb : Byte
  /-- `bitIndex` (R31 c). -/
  bi : Nat
  /-- `phase` (R32). -/
  phase : Phase
  /-- `FAULT_REASON` (R33). -/
  faultReason : FaultReason
  /-- `FAULT_INFO` (R33). -/
  faultInfo : FaultInfo
  /-- MODEL'S OWN: the host's pending acts, the first one next (log 6). -/
  host : List HostAct
  /-- MODEL'S OWN: the index of the next free value (log 3). -/
  freeIdx : Nat
  deriving DecidableEq, Repr

/-- Where the MODEL stops with no next state. The spec's own faults are not here: they are next states in phase
FAULT (60_exceptions.md rule R206). -/
inductive Fault where
  /-- Raised by the fetch of an element and by HDR_RAW when a byte of IN below the checked bound was never placed
  by the host, against R233 (log 2). Safe: the model stops where the hardware reads some byte. -/
  | inputNotPlaced
  /-- Raised by COPY when a byte of OUT at or after `copySource` was never written. R145 shows that no run reaches it
  (log 2). Safe. -/
  | outputNotWritten
  deriving DecidableEq, Repr

/-- What the model does not accept. -/
inductive Refusal where
  /-- Raised by an arm of `exec` that has no meaning yet; none is left. Safe. -/
  | notModelled (mnemonic : String)
  /-- Raised by START with `IN_LEN` above `IN_LEN_MAX`: "The spec gives no behaviour" (D4, U9; log 8). Safe. -/
  | inLenTooLarge
  /-- Raised by a host write of IN in a run: "no behaviour given" (U9, R63; log 7). Safe. -/
  | hostTouchedInput
  /-- Raised by the fetch and by COPY at a position whose `bitCount` is above 15, for which the table has no row;
  R124 shows that no run reaches one (log 12). Safe. -/
  | bitCountAbove15
  deriving DecidableEq, Repr

/-- The state after power-on (R36): phase IDLE and the status registers 0. Everything else is unspecified there; the
values below are the model's own (log 1). -/
def State.reset : State where
  params := Params.mk none none none
  inMem := []
  inLen := 0
  outMem := []
  cre := 0
  cc := 0
  ccs := 0
  dc := 0
  dcs := 0
  ce := 0
  fb := 0#8
  bi := 0
  phase := .idle
  faultReason := .none
  faultInfo := ⟨.none, 0⟩
  host := []
  freeIdx := 0

end Sys2Proof.Machine
end

