-- ==== Sys2Proof/Machine/Ops.lean ====
section
/-! DEFINITION. The named operations over the two buffers and the registers: reading and writing bytes, the byte-by-byte
moves of COPY and HDR_RAW, raising a fault, the start of a run and a hardware reset. -/

namespace Sys2Proof.Machine

open Sys2Proof

/-! ## The buffers (20_memory.md) -/

/-- The canonical form of a buffer: addresses strictly rising. An unlisted address holds no value, so no entry can
equal what an unlisted address reads as (log 2). -/
def Memory.wf : Memory → Bool
  | [] => true
  | [_] => true
  | c :: d :: m => decide (c.1 < d.1) && Memory.wf (d :: m)

/-- `MemRead(_, a, 1)` (00_scope.md rule R11): the byte at `a`, or none where nothing was written. -/
def Memory.read : Memory → Nat → Option Byte
  | [], _ => none
  | c :: m, a => if c.1 = a then some c.2 else Memory.read m a

/-- `MemWrite(_, a, 1, b)` (R11), keeping the canonical form. -/
def Memory.write : Memory → Nat → Byte → Memory
  | [], a, b => [(a, b)]
  | c :: m, a, b =>
    if c.1 < a then c :: Memory.write m a b
    else if c.1 = a then (a, b) :: m
    else (a, b) :: c :: m

/-- Every one of the `n` addresses from `a` on holds a byte. One pass over a canonical buffer. -/
def Memory.hasBytes : Memory → Nat → Nat → Bool
  | _, _, 0 => true
  | [], _, _ + 1 => false
  | c :: m, a, n + 1 =>
    if c.1 < a then Memory.hasBytes m a (n + 1)
    else if c.1 = a then Memory.hasBytes m (a + 1) n
    else false

/-- The bytes at the `n` addresses from `a` on, for a canonical buffer that has them. -/
def Memory.bytesAt : Memory → Nat → Nat → List Byte
  | _, _, 0 => []
  | [], _, _ + 1 => []
  | c :: m, a, n + 1 =>
    if c.1 < a then Memory.bytesAt m a (n + 1) else c.2 :: Memory.bytesAt m (a + 1) n

/-- The `n` bytes from `a` on, lowest address first; none when one of them was never written. -/
def Memory.readBytes (m : Memory) (a n : Nat) : Option (List Byte) :=
  if m.hasBytes a n then some (m.bytesAt a n) else none

/-- A byte string as cells from address `a` on. -/
def cellsFrom : Nat → List Byte → Memory
  | _, [] => []
  | a, b :: bs => (a, b) :: cellsFrom (a + 1) bs

/-- A buffer with a byte string laid over the addresses from `a` on. -/
def Memory.writeBytes (m : Memory) (a : Nat) (bs : List Byte) : Memory :=
  m.filter (fun c => decide (c.1 < a)) ++ cellsFrom a bs ++ m.filter (fun c => decide (a + bs.length ≤ c.1))

/-- Any list of cells put into canonical form. -/
def Memory.ofCells (cells : List Host.Cell) : Memory :=
  cells.foldl (fun m c => m.write c.1 c.2) []

/-- The test of an append at `a` against `OUT_CAPACITY` (R54). -/
def capacityReached (capacity : Option Nat) (a : Nat) : Bool :=
  match capacity with
  | none => false
  | some c => decide (c ≤ a)

/-- R54 at the machine's own capacity. -/
def State.outFull (s : State) (a : Nat) : Bool := capacityReached s.params.outCapacity a

/-- How a sequence of byte moves ends. -/
inductive MoveResult where
  /-- Every byte was moved; the new OUT. -/
  | moved (out : Memory)
  /-- The append at `a` is at or past `OUT_CAPACITY` (R54). -/
  | full (a : Nat)
  /-- A source byte holds no value (log 2). -/
  | missing
  deriving DecidableEq, Repr

/-- The byte moves of one COPY (R145): one at a time, lowest address first, each write complete before the next
read (20_memory.md rule R60). -/
def copyLoop (capacity : Option Nat) : (n src dst : Nat) → Memory → MoveResult
  | 0, _, _, out => .moved out
  | n + 1, src, dst, out =>
    match out.read src with
    | none => .missing
    | some b =>
      if capacityReached capacity dst then .full dst
      else copyLoop capacity n (src + 1) (dst + 1) (out.write dst b)

/-- The appends of a byte string from address `dst` on, one at a time (R165, R54). -/
def appendLoop (capacity : Option Nat) : (bs : List Byte) → (dst : Nat) → Memory → MoveResult
  | [], _, out => .moved out
  | b :: bs, dst, out =>
    if capacityReached capacity dst then .full dst
    else appendLoop capacity bs (dst + 1) (out.write dst b)

/-! ## Free values (R35, R36, R207; log 3, 4, 5) -/

/-- A free value of a cursor: any natural number that the cursor's width holds (R8, `CURSOR_W`). -/
def State.freeCursor (s : State) (k : Nat) : Nat :=
  match s.params.cursorW with
  | none => Config.freeNat k
  | some w => Config.freeNat k % 2 ^ w

/-- A sub-cause from its 2-bit code (R205). -/
def SubCause.ofCode : Nat → SubCause
  | 0 => .none
  | 1 => .inputRead
  | 2 => .outputRead
  | _ => .outputWrite

/-- A free `FAULT_INFO`: any 2-bit sub-cause and any number (R33). -/
def freeFaultInfo (k : Nat) : FaultInfo :=
  ⟨SubCause.ofCode (Config.freeNat k % 4), Config.freeNat (k + 1)⟩

/-- A free content of OUT: any bytes at addresses OUT has (R22, R54). -/
def State.freeOut (s : State) (k : Nat) : Memory :=
  Memory.ofCells ((Config.freeCells k).filter fun c => !s.outFull c.1)

/-- The registers that R35 leaves without a value at the start of a run, each a fresh free value: `compressedCurrent`,
`compressedChunkStart`, `decompressedChunkStart`, `compressedEnd`, `flagByte`, `bitIndex` (0 to 8, R31). -/
def State.freeHeld (s : State) : State :=
  { s with
    cc := s.freeCursor s.freeIdx
    ccs := s.freeCursor (s.freeIdx + 1)
    dcs := s.freeCursor (s.freeIdx + 2)
    ce := s.freeCursor (s.freeIdx + 3)
    fb := Config.freeByte (s.freeIdx + 4)
    bi := Config.freeNat (s.freeIdx + 5) % 9
    freeIdx := s.freeIdx + 6 }

/-- OUT, all five cursors and the held values without a value (R207, R36). -/
def State.freeAll (s : State) : State :=
  { s.freeHeld with
    outMem := s.freeOut (s.freeIdx + 6)
    cre := s.freeCursor (s.freeIdx + 7)
    dc := s.freeCursor (s.freeIdx + 8)
    freeIdx := s.freeIdx + 9 }

/-! ## Taking a fault (60_exceptions.md) -/

/-- `raise F(info)` (R206): the run ends in phase FAULT with the reason and the info of R205; what R207 leaves
unspecified is free. There is no handler, no vector and no saved address. The ways out are START and a hardware
reset (R208). -/
def State.raise (s : State) (reason : FaultReason) (info : FaultInfo) : State :=
  { s.freeAll with phase := .fault, faultReason := reason, faultInfo := info }

/-! ## The start of a run and a hardware reset (70_reset_and_hazards.md) -/

/-- The start sequence (R230), which leaves the state of 10_state.md rule R35. `FAULT_INFO` has no value outside
phase FAULT (R33). -/
def State.startRun (s : State) : State :=
  { s.freeHeld with
    cre := s.inLen
    outMem := []
    dc := 0
    faultReason := .none
    faultInfo := freeFaultInfo (s.freeIdx + 6)
    phase := .sig
    freeIdx := s.freeIdx + 8 }

/-- A hardware reset (R232, R36): phase IDLE, the status registers 0, everything else without a value, both buffers
included (log 5). -/
def State.hardReset (s : State) : State :=
  { s.freeAll with
    inMem := Memory.ofCells (Config.freeCells (s.freeIdx + 9))
    inLen := s.freeCursor (s.freeIdx + 10)
    faultReason := .none
    faultInfo := freeFaultInfo (s.freeIdx + 11)
    phase := .idle
    freeIdx := s.freeIdx + 13 }

/-! ## Register updates of the elements -/

/-- The sequencer's move to another phase, nothing else changed (R146, R164, R183). -/
def State.enterPhase (s : State) (p : Phase) : State := { s with phase := p }

/-- What SIG writes (R181). -/
def State.passSignature (s : State) : State := { s with cc := 1, phase := .chunk }

/-- What the chunk start writes (R182, R161), with `size` the header's size. -/
def State.openChunk (s : State) (size : Nat) : State :=
  { s with ccs := s.cc, dcs := s.dc, ce := min s.cre (s.cc + size), cc := s.cc + 2 }

/-- What FLAG writes (R141). -/
def State.takeFlag (s : State) (f : Byte) : State :=
  { s with fb := f, cc := s.cc + 1, bi := 0, phase := .token }

/-- What LIT and COPY write when they complete (R143, R144): `taken` input bytes, `made` output bytes. -/
def State.tookToken (s : State) (taken made : Nat) (out : Memory) : State :=
  { s with outMem := out, dc := s.dc + made, cc := s.cc + taken, bi := s.bi + 1 }

/-- What the raw payload writes when it completes (R165). -/
def State.tookPayload (s : State) (out : Memory) : State :=
  { s with outMem := out, cc := s.cc + 4096, dc := s.dc + 4096, phase := .chunk }

end Sys2Proof.Machine
end

