-- ==== Sys2Proof/Machine/Flags.lean ====
section
/-! DEFINITION. The hardware has no condition codes and no element sets a status flag (10_state.md rule R34). What
stands here are the bits software and the sequencer look at: the slot bits of the flag byte and the host's read-only
registers (R33). -/

namespace Sys2Proof.Machine

open Sys2Proof

/-- `fb[i]`: the bit of the flag byte that governs slot `i`, bit 0 first (30_encoding.md rule R84). -/
def flagBit (fb : Byte) (i : Nat) : Bool := fb.getLsbD i

/-- `STATUS` (R33): 0 IDLE, 1 RUN, 2 DONE, 3 FAULT. A view of `phase` (log 18). -/
def State.status (s : State) : BitVec 2 :=
  match s.phase with
  | .idle => 0
  | .sig | .chunk | .group | .token => 1
  | .done => 2
  | .fault => 3

/-- The code the host reads in `FAULT_REASON` (60_exceptions.md rule R205). -/
def FaultReason.code : FaultReason → BitVec 2
  | .none => 0
  | .malformedSignature => 1
  | .outOfBounds => 2
  | .undefinedHelpData => 3

/-- The code of the sub-cause the host reads in `FAULT_INFO` (R205). -/
def SubCause.code : SubCause → BitVec 2
  | .none => 0
  | .inputRead => 1
  | .outputRead => 2
  | .outputWrite => 3

/-- `OUT_LEN` (R33): equals `decompressedCurrent`; 0 in IDLE (R36). A view (log 18). -/
def State.outLen (s : State) : Nat :=
  match s.phase with
  | .idle => 0
  | _ => s.dc

/-- No run is in progress (R184, first rows): the phases in which the host may act. -/
def State.atRest (s : State) : Bool :=
  match s.phase with
  | .idle | .done | .fault => true
  | _ => false

end Sys2Proof.Machine
end

