-- ==== Sys2Proof/Machine/Operands.lean ====
section
/-! DEFINITION. The pure functions that turn the fields of an element into its operands: the ChunkHeader component
(40_chunk_header.md) and the CopyTokenCodec component (41_copy_token_codec.md). -/

namespace Sys2Proof.Machine

open Sys2Proof

/-- `header_size(h)` (R110): 3 to 4098. -/
def headerSize (h : Half) : Nat := (h &&& 0x0FFF#16).toNat + 3

/-- `header_is_compressed(h)` (R111): bit 15. -/
def headerIsCompressed (h : Half) : Nat := ((h &&& 0x8000#16) >>> 15).toNat

/-- `clog2(d)` for `d >= 1` (00_scope.md rule R10): the least `n` with `2^n >= d`, on integers (D6). -/
def clog2 (d : Nat) : Nat := if d ≤ 1 then 0 else Nat.log2 (d - 1) + 1

/-- The help data of a copy token (R120). -/
structure HelpData where
  bitCount : Nat
  lengthMask : Half
  offsetMask : Half
  maximumLength : Nat
  deriving DecidableEq, Repr

/-- The help data at a bit count (R122). -/
def helpDataAt (bitCount : Nat) : HelpData where
  bitCount := bitCount
  lengthMask := 0xFFFF#16 >>> bitCount
  offsetMask := ~~~(0xFFFF#16 >>> bitCount)
  maximumLength := (0xFFFF#16 >>> bitCount).toNat + 3

/-- `computeHelpData(difference)` (R120 to R123): no value at 0 (R125), no upper clamp (R123). -/
def computeHelpData (difference : Nat) : Option HelpData :=
  if difference = 0 then none else some (helpDataAt (max 4 (clog2 difference)))

/-- The `length` of `unpack(token, helpData)` (R126). -/
def unpackLength (token : Half) (hd : HelpData) : Nat := (token &&& hd.lengthMask).toNat + 3

/-- The `offset` of `unpack(token, helpData)` (R126). -/
def unpackOffset (token : Half) (hd : HelpData) : Nat :=
  ((token &&& hd.offsetMask) >>> (16 - hd.bitCount)).toNat + 1

/-- `difference` (10_state.md rule R29): the bytes decoded so far in the current chunk. In a state with `dc < dcs`,
which R29 rules out, it is 0 (log 14). -/
def State.difference (s : State) : Nat := s.dc - s.dcs

end Sys2Proof.Machine
end

