-- ==== Sys2Proof/Machine/Chunk.lean ====
section
/-! DEFINITION. The elements of the ChunkDecoder: HDR_RAW and HDR_CMP (43_chunk_decoder.md). -/

namespace Sys2Proof.Machine

open Sys2Proof

/-- The start of every chunk (R182, R161) with header `h`, then `rest` in the state it leaves. -/
def chunkStart (h : Half) (rest : State → Host.Outcome State Fault Refusal) (s : State) :
    Host.Outcome State Fault Refusal :=
  if s.cre < s.cc + 2 then .next (s.raise .outOfBounds ⟨.inputRead, s.cre⟩)
  else rest (s.openChunk (headerSize h))

/-- The payload of a raw chunk (R165): the bound of the whole payload first (D19), then the 4096 bytes in address
order. -/
def rawPayload (s : State) : Host.Outcome State Fault Refusal :=
  if s.cre < s.cc + 4096 then .next (s.raise .outOfBounds ⟨.inputRead, s.cre⟩)
  else
    match s.inMem.readBytes s.cc 4096 with
    | none => .fault .inputNotPlaced
    | some bs =>
      match appendLoop s.params.outCapacity bs s.dc s.outMem with
      | .moved out => .next (s.tookPayload out)
      | .full a => .next (s.raise .outOfBounds ⟨.outputWrite, a⟩)
      | .missing => .fault .outputNotWritten

/-- HDR_RAW (R161, R165). -/
def execHdrRaw (x : BitVec 3) (sz : BitVec 12) (s : State) : Host.Outcome State Fault Refusal :=
  chunkStart (headerWord 0#1 x sz) rawPayload s

/-- HDR_CMP (R161, R162). -/
def execHdrCmp (x : BitVec 3) (sz : BitVec 12) (s : State) : Host.Outcome State Fault Refusal :=
  chunkStart (headerWord 1#1 x sz) (fun t => .next (t.enterPhase .group)) s

end Sys2Proof.Machine
end

