-- ==== Sys2Proof/Machine/Engine.lean ====
section
/-! DEFINITION. The element of the DecompressionEngine: SIG (44_engine.md). -/

namespace Sys2Proof.Machine

open Sys2Proof

/-- SIG (R181): the empty input first, then the value of byte 0 (R209). -/
def execSig (b : Byte) (s : State) : Host.Outcome State Fault Refusal :=
  if s.cre = 0 then .next (s.raise .outOfBounds ⟨.inputRead, 0⟩)
  else if b = signatureByte then .next s.passSignature
  else .next (s.raise .malformedSignature ⟨.none, b.toNat⟩)

end Sys2Proof.Machine
end

