-- ==== Sys2Proof/Machine/Token.lean ====
section
/-! DEFINITION. The elements of the TokenSequenceDecoder: FLAG, LIT, COPY (42_token_sequence.md). -/

namespace Sys2Proof.Machine

open Sys2Proof

/-- FLAG (R141). -/
def execFlag (f : Byte) (s : State) : Host.Outcome State Fault Refusal :=
  .next (s.takeFlag f)

/-- LIT (R143). -/
def execLit (b : Byte) (s : State) : Host.Outcome State Fault Refusal :=
  if s.outFull s.dc then .next (s.raise .outOfBounds ⟨.outputWrite, s.dc⟩)
  else .next (s.tookToken 1 1 (s.outMem.write s.dc b))

/-- COPY (R144) on a 16-bit token value, its tests in the order R144 and R209 list them. The token is split by the
position's own help data, as R144 says, not by the row it was decoded from. A position whose `bitCount` is above 15
has no row in the table and is refused; R124 shows that no run reaches one (log 12). -/
def copyToken (token : Half) (s : State) : Host.Outcome State Fault Refusal :=
  if s.ce < s.cc + 2 then .next (s.raise .outOfBounds ⟨.inputRead, s.ce⟩)
  else
    match computeHelpData s.difference with
    | none => .next (s.raise .undefinedHelpData ⟨.none, s.cc⟩)
    | some hd =>
      if 15 < hd.bitCount then .refused .bitCountAbove15
      else if s.dc < unpackOffset token hd then
        .next (s.raise .outOfBounds ⟨.outputRead, unpackOffset token hd⟩)
      else
        match copyLoop s.params.outCapacity (unpackLength token hd) (s.dc - unpackOffset token hd) s.dc
            s.outMem with
        | .moved out => .next (s.tookToken 2 (unpackLength token hd) out)
        | .full a => .next (s.raise .outOfBounds ⟨.outputWrite, a⟩)
        | .missing => .fault .outputNotWritten

/-- COPY_B4 (R144, R87): its fields put back together are the 16-bit token. -/
def execCopyB4 (o : BitVec 4) (l : BitVec 12) (s : State) : Host.Outcome State Fault Refusal :=
  copyToken (o ++ l) s

/-- COPY_B5 (R144, R87): its fields put back together are the 16-bit token. -/
def execCopyB5 (o : BitVec 5) (l : BitVec 11) (s : State) : Host.Outcome State Fault Refusal :=
  copyToken (o ++ l) s

/-- COPY_B6 (R144, R87): its fields put back together are the 16-bit token. -/
def execCopyB6 (o : BitVec 6) (l : BitVec 10) (s : State) : Host.Outcome State Fault Refusal :=
  copyToken (o ++ l) s

/-- COPY_B7 (R144, R87): its fields put back together are the 16-bit token. -/
def execCopyB7 (o : BitVec 7) (l : BitVec 9) (s : State) : Host.Outcome State Fault Refusal :=
  copyToken (o ++ l) s

/-- COPY_B8 (R144, R87): its fields put back together are the 16-bit token. -/
def execCopyB8 (o : BitVec 8) (l : BitVec 8) (s : State) : Host.Outcome State Fault Refusal :=
  copyToken (o ++ l) s

/-- COPY_B9 (R144, R87): its fields put back together are the 16-bit token. -/
def execCopyB9 (o : BitVec 9) (l : BitVec 7) (s : State) : Host.Outcome State Fault Refusal :=
  copyToken (o ++ l) s

/-- COPY_B10 (R144, R87): its fields put back together are the 16-bit token. -/
def execCopyB10 (o : BitVec 10) (l : BitVec 6) (s : State) : Host.Outcome State Fault Refusal :=
  copyToken (o ++ l) s

/-- COPY_B11 (R144, R87): its fields put back together are the 16-bit token. -/
def execCopyB11 (o : BitVec 11) (l : BitVec 5) (s : State) : Host.Outcome State Fault Refusal :=
  copyToken (o ++ l) s

/-- COPY_B12 (R144, R87): its fields put back together are the 16-bit token. -/
def execCopyB12 (o : BitVec 12) (l : BitVec 4) (s : State) : Host.Outcome State Fault Refusal :=
  copyToken (o ++ l) s

/-- COPY_B13 (R144, R87): its fields put back together are the 16-bit token. -/
def execCopyB13 (o : BitVec 13) (l : BitVec 3) (s : State) : Host.Outcome State Fault Refusal :=
  copyToken (o ++ l) s

/-- COPY_B14 (R144, R87): its fields put back together are the 16-bit token. -/
def execCopyB14 (o : BitVec 14) (l : BitVec 2) (s : State) : Host.Outcome State Fault Refusal :=
  copyToken (o ++ l) s

/-- COPY_B15 (R144, R87): its fields put back together are the 16-bit token. -/
def execCopyB15 (o : BitVec 15) (l : BitVec 1) (s : State) : Host.Outcome State Fault Refusal :=
  copyToken (o ++ l) s

end Sys2Proof.Machine
end

