-- ==== Sys2Proof/Machine/Dispatch.lean ====
section
/-! DEFINITION. The dispatch of the stream elements to their meanings: one arm per constructor of `Instr`. -/

namespace Sys2Proof.Machine

open Sys2Proof

def exec (i : Instr) (s : State) : Host.Outcome State Fault Refusal :=
  match i with
  -- DecompressionEngine (44_engine.md)
  | .sig b => Sys2Proof.Machine.execSig b s
  -- ChunkDecoder (43_chunk_decoder.md)
  | .hdrRaw x sz => Sys2Proof.Machine.execHdrRaw x sz s
  | .hdrCmp x sz => Sys2Proof.Machine.execHdrCmp x sz s
  -- TokenSequenceDecoder (42_token_sequence.md)
  | .flag f => Sys2Proof.Machine.execFlag f s
  | .lit b => Sys2Proof.Machine.execLit b s
  | .copyB4 o l => Sys2Proof.Machine.execCopyB4 o l s
  | .copyB5 o l => Sys2Proof.Machine.execCopyB5 o l s
  | .copyB6 o l => Sys2Proof.Machine.execCopyB6 o l s
  | .copyB7 o l => Sys2Proof.Machine.execCopyB7 o l s
  | .copyB8 o l => Sys2Proof.Machine.execCopyB8 o l s
  | .copyB9 o l => Sys2Proof.Machine.execCopyB9 o l s
  | .copyB10 o l => Sys2Proof.Machine.execCopyB10 o l s
  | .copyB11 o l => Sys2Proof.Machine.execCopyB11 o l s
  | .copyB12 o l => Sys2Proof.Machine.execCopyB12 o l s
  | .copyB13 o l => Sys2Proof.Machine.execCopyB13 o l s
  | .copyB14 o l => Sys2Proof.Machine.execCopyB14 o l s
  | .copyB15 o l => Sys2Proof.Machine.execCopyB15 o l s

end Sys2Proof.Machine
end

