-- ==== Sys2Proof/Machine/Fetch.lean ====
section
/-! DEFINITION. The sequencer's choice of the next step (44_engine.md rule R184) and the fetch of the element it takes
(30_encoding.md rule R80; 20_memory.md rule R52), and the effect of the host's acts. -/

namespace Sys2Proof.Machine

open Sys2Proof

/-- What the row of R184 that holds in a state asks for. -/
inductive Choice where
  /-- The hardware is at rest. -/
  | rest
  /-- The step takes no element and only moves to a phase: end of run, chunk or group. -/
  | moveTo (p : Phase)
  /-- An element is taken in context `c`, read at address `a` below `limit` (R52). -/
  | take (c : Context) (a limit : Nat)
  /-- A copy token at a position where `computeHelpData` has no value (R125). -/
  | takeUndefined
  deriving DecidableEq, Repr

/-- The table of R184, its rows in order. -/
def choose (s : State) : Choice :=
  match s.phase with
  | .idle | .done | .fault => .rest
  | .sig => .take .signature 0 s.cre
  | .chunk => if s.cre ≤ s.cc then .moveTo .done else .take .chunk s.cc s.cre
  | .group => if s.ce ≤ s.cc then .moveTo .chunk else .take .group s.cc s.ce
  | .token =>
    if 8 ≤ s.bi ∨ s.ce ≤ s.cc then .moveTo .group
    else if flagBit s.fb s.bi then
      match computeHelpData s.difference with
      | some hd => .take (.copy hd.bitCount) s.cc s.ce
      | none => .takeUndefined
    else .take .literal s.cc s.ce

/-- What a fetch gives the step. -/
inductive Fetched where
  | rest
  | moveTo (p : Phase)
  /-- The element to execute. -/
  | element (i : Instr)
  /-- The element cannot be read or has no meaning at its position: the fault it raises. -/
  | raises (reason : FaultReason) (info : FaultInfo)
  | stops (f : Fault)
  | refuses (r : Refusal)
  deriving DecidableEq, Repr

/-- Reads and decodes the element of context `c` at `a`: the bound check of R52, the bytes, the decoder. -/
def fetchElement (c : Context) (a limit : Nat) (s : State) : Fetched :=
  if limit < a + c.width then .raises .outOfBounds ⟨.inputRead, limit⟩
  else
    match s.inMem.readBytes a c.width with
    | none => .stops .inputNotPlaced
    | some bs =>
      match decode c bs with
      | .ok (i, _) => .element i
      | .error (.noSuchSplit _) => .refuses .bitCountAbove15
      | .error .truncated => .stops .inputNotPlaced

/-- The next step of a state. For a copy token the bound is tested before the split (R144, R209). -/
def fetch (s : State) : Fetched :=
  match choose s with
  | .rest => .rest
  | .moveTo p => .moveTo p
  | .take c a limit => fetchElement c a limit s
  | .takeUndefined =>
    if s.ce < s.cc + 2 then .raises .outOfBounds ⟨.inputRead, s.ce⟩
    else .raises .undefinedHelpData ⟨.none, s.cc⟩

/-- What an act of the host does to the machine. -/
inductive HostEffect where
  /-- The act is the step; the state it leaves. -/
  | taken (s : State)
  /-- The act changes nothing and the hardware takes its own step. -/
  | none
  | refuses (r : Refusal)
  deriving DecidableEq, Repr

/-- `IN_LEN` is above `IN_LEN_MAX` (00_scope.md rule R8). -/
def State.inLenTooLarge (s : State) : Bool :=
  match s.params.inLenMax with
  | none => false
  | some m => decide (m < s.inLen)

/-- The effect of an act of the host (R33, R230, R232; log 6, 7, 8). -/
def hostEffect (a : HostAct) (s : State) : HostEffect :=
  match a with
  | .pass => .none
  | .writeIn addr b =>
    if s.atRest then .taken { s with inMem := s.inMem.write addr b } else .refuses .hostTouchedInput
  | .writeInLen n => if s.atRest then .taken { s with inLen := n } else .none
  | .writeStart v =>
    if v = 1 ∧ s.atRest then
      if s.inLenTooLarge then .refuses .inLenTooLarge else .taken s.startRun
    else .none
  | .hardReset => .taken s.hardReset

end Sys2Proof.Machine
end

