-- ==== Sys2Proof/Machine/Step.lean ====
section
/-! DEFINITION. One step of the hardware: one row of the sequencer table (44_engine.md rule R184), after the host's
pending act if there is one. -/

namespace Sys2Proof.Machine

open Sys2Proof

/-- The hardware's own step (R184). -/
def advance (s : State) : Host.Outcome State Fault Refusal :=
  match fetch s with
  | .rest => .next s
  | .moveTo p => .next (s.enterPhase p)
  | .element i => exec i s
  | .raises reason info => .next (s.raise reason info)
  | .stops f => .fault f
  | .refuses r => .refused r

/-- One step: the host's next act lands first (log 6); an act with no effect leaves the step to the hardware. -/
def step (s : State) : Host.Outcome State Fault Refusal :=
  match s.host with
  | [] => advance s
  | a :: rest =>
    match hostEffect a { s with host := rest } with
    | .taken t => .next t
    | .none => advance { s with host := rest }
    | .refuses r => .refused r

/-- `s` with a table row's bits where the next step fetches them, in the context the bits are decoded in
(`tableContext`; log 13): the bytes in IN, the phase, and the limits the bound checks need. The 4096 payload bytes of
a raw chunk are zeros. -/
def State.withFetchWord (s : State) (nbits w : Nat) : State :=
  match tableContext nbits w with
  | some .signature =>
    { s with
      inMem := s.inMem.writeBytes 0 (tableBytes nbits w)
      cre := max s.cre 1, phase := .sig, host := [] }
  | some .chunk =>
    if (BitVec.ofNat 16 w).getLsbD 15 then
      { s with
        inMem := s.inMem.writeBytes s.cc (tableBytes nbits w)
        cre := max s.cre (s.cc + 2), phase := .chunk, host := [] }
    else
      { s with
        inMem := s.inMem.writeBytes s.cc (tableBytes nbits w ++ List.replicate 4096 0#8)
        cre := max s.cre (s.cc + 2 + 4096), phase := .chunk, host := [] }
  | some .group =>
    { s with
      inMem := s.inMem.writeBytes s.cc (tableBytes nbits w)
      ce := max s.ce (s.cc + 1), phase := .group, host := [] }
  | _ => s

end Sys2Proof.Machine
end

