-- ==== Sys2Proof/Safety.lean ====
section
/-! DEFINITION. The terms the statements use: what a fault defines, what a run keeps, and the whole algorithm in one
listing (44_engine.md rule R185). -/

namespace Sys2Proof.Machine

open Sys2Proof

/-! ## Outcomes -/

/-- What `raise F(info)` defines (60_exceptions.md rules R206, R207): the phase, the reason and the info; the machine's
parameters, the host's side, IN and `IN_LEN` are as before. Nothing is said of OUT, the cursors and the held values. -/
structure Faulted (s : State) (reason : FaultReason) (info : FaultInfo) (t : State) : Prop where
  phase : t.phase = .fault
  reason : t.faultReason = reason
  info : t.faultInfo = info
  params : t.params = s.params
  inMem : t.inMem = s.inMem
  inLen : t.inLen = s.inLen
  host : t.host = s.host

/-- A run is in progress (`STATUS = 1`, R33). -/
def State.running (s : State) : Bool := !s.atRest

/-- An outcome with its next state, if it has one, changed by `f`. -/
def mapNext (f : State → State) : Host.Outcome State Fault Refusal → Host.Outcome State Fault Refusal
  | .next s => .next (f s)
  | .fault r => .fault r
  | .refused r => .refused r

/-! ## The buffers -/

/-- The addresses that hold a byte are exactly 0 to `n - 1` (10_state.md rule R22). -/
abbrev Filled (m : Memory) (n : Nat) : Prop := m.map Prod.fst = List.range n

/-- OUT can take `n` more bytes at `decompressedCurrent` (R54). -/
def State.hasRoom (s : State) (n : Nat) : Prop :=
  ∀ c, s.params.outCapacity = some c → s.dc + n ≤ c

/-- IN holds a byte at each of the `n` addresses from `a` on. -/
def State.placed (s : State) (a n : Nat) : Prop := ∀ i, i < n → (s.inMem.read (a + i)).isSome

/-- Two buffers hold the same bytes at the addresses from `lo` to `hi - 1`. -/
def SameBetween (m m' : Memory) (lo hi : Nat) : Prop := ∀ a, lo ≤ a → a < hi → m.read a = m'.read a

/-! ## The fields of a copy token -/

/-- The split and the two fields of a COPY element, as numbers: bitCount, offset field `O`, length field `L`
(30_encoding.md rules R86, R87). -/
def copyFields : Instr → Option (Nat × Nat × Nat)
  | .copyB4 o l => some (4, o.toNat, l.toNat)
  | .copyB5 o l => some (5, o.toNat, l.toNat)
  | .copyB6 o l => some (6, o.toNat, l.toNat)
  | .copyB7 o l => some (7, o.toNat, l.toNat)
  | .copyB8 o l => some (8, o.toNat, l.toNat)
  | .copyB9 o l => some (9, o.toNat, l.toNat)
  | .copyB10 o l => some (10, o.toNat, l.toNat)
  | .copyB11 o l => some (11, o.toNat, l.toNat)
  | .copyB12 o l => some (12, o.toNat, l.toNat)
  | .copyB13 o l => some (13, o.toNat, l.toNat)
  | .copyB14 o l => some (14, o.toNat, l.toNat)
  | .copyB15 o l => some (15, o.toNat, l.toNat)
  | _ => none

/-- The positions of the row with split `n` (R87, column "difference range"), `d` being the difference. -/
def InSplit (n d : Nat) : Prop := 1 ≤ d ∧ d ≤ 2 ^ n ∧ (4 < n → 2 ^ (n - 1) < d)

/-! ## The invariant of the machine -/

/-- What holds while a run is in progress: the record end is the input length (R24), which the implementation accepts
(R8), and OUT holds exactly its first `dc` bytes (R22, R27), within its capacity (R54). -/
structure InRun (s : State) : Prop where
  recordEnd : s.cre = s.inLen
  accepted : s.inLenTooLarge = false
  filled : Filled s.outMem s.dc
  room : s.hasRoom 0

/-- What holds inside a compressed chunk (R161, R29). `growth` is the argument of R124: at most 6146 bytes when
`difference` first passes 4096, and from there at most 5 for each byte of the payload. -/
structure InChunk (s : State) : Prop where
  first : 1 ≤ s.ccs
  start : s.ccs + 2 ≤ s.cc
  bound : s.cc ≤ s.ce
  recordEnd : s.ce ≤ s.cre
  size : s.ce ≤ s.ccs + 4098
  order : s.dcs ≤ s.dc
  growth : s.dc - s.dcs ≤ 6146 + 5 * (s.cc - (s.ccs + 2))

/-- The output is at most 2049 bytes for each input byte after the signature (70 rule R240). -/
def State.expansionBounded (s : State) : Prop := s.dc ≤ 2049 * (s.cc - 1)

/-- The part of the invariant that depends on the phase. Phases IDLE and FAULT leave the cursors open (R36, R207). -/
def PhaseInv (s : State) : Prop :=
  match s.phase with
  | .idle | .fault => True
  | .sig => InRun s ∧ s.dc = 0
  | .chunk => InRun s ∧ s.expansionBounded ∧ 1 ≤ s.cc ∧ s.cc ≤ s.cre
  | .group | .token => InRun s ∧ s.expansionBounded ∧ InChunk s
  | .done => Filled s.outMem s.dc ∧ s.hasRoom 0 ∧ s.expansionBounded ∧ 1 ≤ s.cc ∧ s.cc = s.cre

/-- The invariant that every step keeps. -/
structure Inv (s : State) : Prop where
  inCanonical : s.inMem.wf = true
  outCanonical : s.outMem.wf = true
  /-- `bitIndex` is 0 to 8 (R31). -/
  bitIndex : s.bi ≤ 8
  /-- A reason is named in phase FAULT and in no other (R205, R206, R230). -/
  reason : s.faultReason ≠ .none ↔ s.phase = .fault
  phase : PhaseInv s

/-! ## The width of the cursors -/

/-- An implementation's `CURSOR_W` is wide enough for what it accepts (92_eei_decisions.md D2). -/
def State.widthAdequate (s : State) : Prop :=
  ∀ w, s.params.cursorW = some w →
    (∃ m, s.params.inLenMax = some m ∧ m < 2 ^ w) ∧ (∃ c, s.params.outCapacity = some c ∧ c < 2 ^ w)

/-- Every cursor and `compressedEnd` is a value its register can hold (R8). -/
def State.cursorsFit (s : State) : Prop :=
  ∀ w, s.params.cursorW = some w →
    s.cre < 2 ^ w ∧ s.cc < 2 ^ w ∧ s.ccs < 2 ^ w ∧ s.dc < 2 ^ w ∧ s.dcs < 2 ^ w ∧ s.ce < 2 ^ w

/-! ## Termination -/

/-- How many steps of R184 a run can still take (44_engine.md rule R186). -/
def State.stepsLeft (s : State) : Nat :=
  match s.phase with
  | .idle | .done | .fault => 0
  | .sig => 3 * s.cre + 3
  | .chunk => 3 * (s.cre - s.cc) + 1
  | .group => 3 * (s.cre - s.cc) + 2
  | .token => 3 * (s.cre - s.cc) + 3

/-! ## The whole algorithm in one listing (44_engine.md rule R185)

The listing over byte lists and natural numbers. Each loop carries a count that bounds its turns; every turn moves
the read cursor, so no loop reaches the end of its count. -/

/-- What a run returns. -/
inductive RunResult where
  | done (out : List Byte)
  | fault (reason : FaultReason) (info : FaultInfo)
  deriving DecidableEq, Repr

/-- A loop goes on with a value or returns a fault. -/
abbrev Loop (α : Type) := Except (FaultReason × FaultInfo) α

/-- `IN[a]` of the listing. -/
def listByte (bs : List Byte) (a : Nat) : Byte := (bs[a]?).getD 0

/-- The copy loop of the listing: `n` times, append `out[|out| - offset]`. -/
def listCopy (capacity : Option Nat) (offset : Nat) : (n : Nat) → List Byte → Loop (List Byte)
  | 0, out => .ok out
  | n + 1, out =>
    if capacityReached capacity out.length then .error (.outOfBounds, ⟨.outputWrite, out.length⟩)
    else listCopy capacity offset n (out ++ [listByte out (out.length - offset)])

/-- The raw loop of the listing: `n` bytes of IN from `src` on. -/
def listRaw (capacity : Option Nat) (inp : List Byte) : (n src : Nat) → List Byte → Loop (List Byte)
  | 0, _, out => .ok out
  | n + 1, src, out =>
    if capacityReached capacity out.length then .error (.outOfBounds, ⟨.outputWrite, out.length⟩)
    else listRaw capacity inp n (src + 1) (out ++ [listByte inp src])

/-- The token loop: `left` slots remain, the next is `bi`. -/
def listTokens (capacity : Option Nat) (inp : List Byte) (dcs ce fb : Nat) :
    (left bi cc : Nat) → List Byte → Loop (Nat × List Byte)
  | 0, _, cc, out => .ok (cc, out)
  | left + 1, bi, cc, out =>
    if ce ≤ cc then .ok (cc, out)
    else if (fb >>> bi) &&& 1 = 0 then
      if capacityReached capacity out.length then .error (.outOfBounds, ⟨.outputWrite, out.length⟩)
      else listTokens capacity inp dcs ce fb left (bi + 1) (cc + 1) (out ++ [listByte inp cc])
    else if ce < cc + 2 then .error (.outOfBounds, ⟨.inputRead, ce⟩)
    else
      let token := (listByte inp cc).toNat + 256 * (listByte inp (cc + 1)).toNat
      let d := out.length - dcs
      if d = 0 then .error (.undefinedHelpData, ⟨.none, cc⟩)
      else
        let n := max 4 (clog2 d)
        let lm := 0xFFFF >>> n
        let om := 0xFFFF - lm
        let length := (token &&& lm) + 3
        let offset := ((token &&& om) >>> (16 - n)) + 1
        if out.length < offset then .error (.outOfBounds, ⟨.outputRead, offset⟩)
        else
          match listCopy capacity offset length out with
          | .error e => .error e
          | .ok out' => listTokens capacity inp dcs ce fb left (bi + 1) (cc + 2) out'

/-- The group loop. -/
def listGroups (capacity : Option Nat) (inp : List Byte) (dcs ce : Nat) :
    (turns cc : Nat) → List Byte → Loop (Nat × List Byte)
  | 0, cc, out => .ok (cc, out)
  | turns + 1, cc, out =>
    if ce ≤ cc then .ok (cc, out)
    else
      match listTokens capacity inp dcs ce (listByte inp cc).toNat 8 0 (cc + 1) out with
      | .error e => .error e
      | .ok (cc', out') => listGroups capacity inp dcs ce turns cc' out'

/-- The chunk loop. -/
def listChunks (capacity : Option Nat) (inp : List Byte) : (turns cc : Nat) → List Byte → Loop (List Byte)
  | 0, _, out => .ok out
  | turns + 1, cc, out =>
    if inp.length ≤ cc then .ok out
    else if inp.length < cc + 2 then .error (.outOfBounds, ⟨.inputRead, inp.length⟩)
    else
      let h := (listByte inp cc).toNat + 256 * (listByte inp (cc + 1)).toNat
      let size := (h &&& 0x0FFF) + 3
      if (h &&& 0x8000) >>> 15 = 1 then
        match listGroups capacity inp out.length (min inp.length (cc + size)) inp.length (cc + 2) out with
        | .error e => .error e
        | .ok (cc', out') => listChunks capacity inp turns cc' out'
      else if inp.length < cc + 2 + 4096 then .error (.outOfBounds, ⟨.inputRead, inp.length⟩)
      else
        match listRaw capacity inp 4096 (cc + 2) out with
        | .error e => .error e
        | .ok out' => listChunks capacity inp turns (cc + 2 + 4096) out'

/-- `decompress(IN)` of R185. -/
def decompress (capacity : Option Nat) (inp : List Byte) : RunResult :=
  if inp.length = 0 then .fault .outOfBounds ⟨.inputRead, 0⟩
  else if listByte inp 0 ≠ signatureByte then .fault .malformedSignature ⟨.none, (listByte inp 0).toNat⟩
  else
    match listChunks capacity inp inp.length 1 [] with
    | .error e => .fault e.1 e.2
    | .ok out => .done out

/-- The state reached at the end of a run shows a result (R183, R205). -/
def State.shows (t : State) : RunResult → Prop
  | .done out => t.phase = .done ∧ t.outMem = cellsFrom 0 out ∧ t.outLen = out.length
  | .fault reason info => t.phase = .fault ∧ t.faultReason = reason ∧ t.faultInfo = info

end Sys2Proof.Machine
end

