-- ==== Sys2Proof/Certificates/Slice0/Obligations.lean ====
section
/-! DEFINITION. The statements for the provers, in the order of the spec's files. Every statement is about every state
that meets its hypotheses, reached by a run or not. -/

open Sys2Proof Sys2Proof.Machine

/-! ## Encoding (30_encoding.md) -/

/-- Decoding the encoding of any element, in the element's own context (R80), gives the element back and leaves the
bytes after it; every field at every value (R82 to R87). -/
def Obligations.DecodeUndoesEncode : Prop :=
  ∀ (i : Instr) (rest : List Byte), decode i.context (encode i ++ rest) = .ok (i, rest)

/-- What the decoder accepts is the encoding of what it answers, in the context asked for, and it drops no byte. -/
def Obligations.DecodedBytesAreTheEncoding : Prop :=
  ∀ (c : Context) (bs rest : List Byte) (i : Instr), decode c bs = .ok (i, rest) →
    i.context = c ∧ bs = encode i ++ rest

/-- Words written out from the formats of R82 to R87 decode to the elements they stand for. -/
def Obligations.WordsOfTheTableDecode : Prop :=
  decode .signature [0b00000001#8] = .ok (.sig 0x01#8, []) ∧
  decode .chunk [0b00101111#8, 0b10110000#8] = .ok (.hdrCmp 0b011#3 0b000000101111#12, []) ∧
  decode .chunk [0b11111111#8, 0b00111111#8] = .ok (.hdrRaw 0b011#3 0b111111111111#12, []) ∧
  decode .group [0b10000010#8] = .ok (.flag 0b10000010#8, []) ∧
  decode .literal [0b01100001#8] = .ok (.lit 0b01100001#8, []) ∧
  decode (.copy 4) [0b00000000#8, 0b01110000#8] = .ok (.copyB4 0b0111#4 0b000000000000#12, []) ∧
  decode (.copy 5) [0b00000001#8, 0b00111000#8] = .ok (.copyB5 0b00111#5 0b00000000001#11, []) ∧
  decode (.copy 6) [0b00000100#8, 0b00010000#8] = .ok (.copyB6 0b000100#6 0b0000000100#10, []) ∧
  decode (.copy 15) [0b11111111#8, 0b01111111#8] = .ok (.copyB15 0b011111111111111#15 0b1#1, []) ∧
  decode (.copy 16) [0b00000000#8, 0b00000000#8] = .error (.noSuchSplit 16)

/-! ## Chunk header (40_chunk_header.md) -/

/-- R110 and R111 on every 16-bit value, and R83's layout: `size` is the low twelve bits plus 3, from 3 to 4098, and
`isCompressed` is bit 15. -/
def Obligations.HeaderSizeAndKind : Prop :=
  (∀ h : Half, headerSize h = h.toNat % 4096 + 3 ∧ 3 ≤ headerSize h ∧ headerSize h ≤ 4098 ∧
    headerIsCompressed h = h.toNat / 32768) ∧
  (∀ (c : BitVec 1) (x : BitVec 3) (sz : BitVec 12),
    headerSize (headerWord c x sz) = sz.toNat + 3 ∧ headerIsCompressed (headerWord c x sz) = c.toNat)

/-- R112: two headers that differ only in bits 14 to 12 decode identically, in every state. -/
def Obligations.IgnoredHeaderBitsHaveNoEffect : Prop :=
  ∀ (x x' : BitVec 3) (sz : BitVec 12) (s : State),
    exec (.hdrRaw x sz) s = exec (.hdrRaw x' sz) s ∧ exec (.hdrCmp x sz) s = exec (.hdrCmp x' sz) s

/-! ## Copy token codec (41_copy_token_codec.md) -/

/-- R121 and R125: `computeHelpData` has no value at 0; from 1 on its `bitCount` is the least `n` of at least 4 with
`2^n >= difference`, with no upper clamp (R123). -/
def Obligations.BitCountIsLeastCoveringSplit : Prop :=
  computeHelpData 0 = none ∧
  ∀ d : Nat, 1 ≤ d → ∃ hd, computeHelpData d = some hd ∧
    4 ≤ hd.bitCount ∧ d ≤ 2 ^ hd.bitCount ∧ ∀ n, 4 ≤ n → d ≤ 2 ^ n → hd.bitCount ≤ n

/-- R122 with the table of R87: at every position of the split `n`, the length mask has the low `16 - n` bits set, the
offset mask the others, and `maximumLength` is the length mask plus 3; for `n` above 15, where the table has no row (R124),
the length mask is 0. -/
def Obligations.MasksSplitTheToken : Prop :=
  ∀ n d : Nat, 4 ≤ n → InSplit n d → ∃ hd, computeHelpData d = some hd ∧ hd.bitCount = n ∧
    hd.lengthMask.toNat = 2 ^ (16 - n) - 1 ∧ hd.offsetMask.toNat = 65536 - 2 ^ (16 - n) ∧
    hd.maximumLength = 2 ^ (16 - n) + 2

/-- R126: `unpack` reads the low `16 - n` bits plus 3 and the high `n` bits plus 1, at every split. -/
def Obligations.UnpackReadsTheFields : Prop :=
  ∀ (n : Nat) (t : Half),
    unpackLength t (helpDataAt n) = t.toNat % 2 ^ (16 - n) + 3 ∧
    unpackOffset t (helpDataAt n) = t.toNat / 2 ^ (16 - n) + 1

/-- R127: at a fixed split every token gives a pair in the ranges, and every pair in the ranges has exactly one token. -/
def Obligations.UnpackIsABijection : Prop :=
  ∀ n : Nat, 4 ≤ n → n ≤ 15 →
    (∀ t : Half, 1 ≤ unpackOffset t (helpDataAt n) ∧ unpackOffset t (helpDataAt n) ≤ 2 ^ n ∧
      3 ≤ unpackLength t (helpDataAt n) ∧ unpackLength t (helpDataAt n) ≤ (helpDataAt n).maximumLength) ∧
    (∀ offset length : Nat, 1 ≤ offset → offset ≤ 2 ^ n → 3 ≤ length → length ≤ (helpDataAt n).maximumLength →
      ∃ t : Half, (unpackOffset t (helpDataAt n) = offset ∧ unpackLength t (helpDataAt n) = length) ∧
        ∀ t' : Half, unpackOffset t' (helpDataAt n) = offset ∧ unpackLength t' (helpDataAt n) = length → t' = t)

/-- R128: as `difference` grows, `bitCount` does not decrease and `lengthMask` and `maximumLength` do not increase. -/
def Obligations.BitCountNeverDecreases : Prop :=
  ∀ (d d' : Nat) (hd hd' : HelpData), d ≤ d' → computeHelpData d = some hd → computeHelpData d' = some hd' →
    hd.bitCount ≤ hd'.bitCount ∧ hd'.lengthMask.toNat ≤ hd.lengthMask.toNat ∧
    hd'.maximumLength ≤ hd.maximumLength

/-! ## The elements: result, frame and faults -/

/-- R181, SIG in every state: on a nonempty input the byte 0x01 opens the run and writes nothing but `cc` and `phase`;
each of the 255 other bytes is MalformedSignature with that byte; the empty input is OutOfBounds(InputRead, 0). -/
def Obligations.SignatureElement : Prop :=
  ∀ s : State,
    (s.cre ≠ 0 → exec (.sig 0x01#8) s = .next { s with cc := 1, phase := .chunk }) ∧
    (∀ b : Byte, s.cre ≠ 0 → b ≠ 0x01#8 →
      ∃ t, exec (.sig b) s = .next t ∧ Faulted s .malformedSignature ⟨.none, b.toNat⟩ t) ∧
    (∀ b : Byte, s.cre = 0 → ∃ t, exec (.sig b) s = .next t ∧ Faulted s .outOfBounds ⟨.inputRead, 0⟩ t)

/-- R162 with R161, HDR_CMP: where the header lies in the record it writes the chunk's registers and enters GROUP, and
nothing else changes; where it is cut off it raises OutOfBounds(InputRead, cre). -/
def Obligations.CompressedHeaderElement : Prop :=
  ∀ (x : BitVec 3) (sz : BitVec 12) (s : State),
    (s.cc + 2 ≤ s.cre → exec (.hdrCmp x sz) s = .next { s with
      ccs := s.cc, dcs := s.dc, ce := min s.cre (s.cc + (sz.toNat + 3)), cc := s.cc + 2, phase := .group }) ∧
    (s.cre < s.cc + 2 →
      ∃ t, exec (.hdrCmp x sz) s = .next t ∧ Faulted s .outOfBounds ⟨.inputRead, s.cre⟩ t)

/-- R165 with R161, HDR_RAW, whatever its size field: where the header and 4096 placed bytes lie in the record and OUT
has room, those bytes are appended in order, both cursors pass them and nothing else changes; where the header is cut
off, or fewer than 4096 bytes remain, it raises OutOfBounds(InputRead, cre); where OUT is full it raises
OutOfBounds(OutputWrite, a) at the first address without room. -/
def Obligations.RawHeaderElement : Prop :=
  ∀ (x : BitVec 3) (sz : BitVec 12) (s : State), s.inMem.wf = true →
    (s.cc + 4098 ≤ s.cre → s.placed (s.cc + 2) 4096 → s.hasRoom 4096 →
      ∃ out, exec (.hdrRaw x sz) s = .next { s with
          ccs := s.cc, dcs := s.dc, ce := min s.cre (s.cc + (sz.toNat + 3)), outMem := out, cc := s.cc + 4098,
          dc := s.dc + 4096, phase := .chunk } ∧
        (∀ i, i < 4096 → out.read (s.dc + i) = s.inMem.read (s.cc + 2 + i)) ∧
        (∀ a, a < s.dc ∨ s.dc + 4096 ≤ a → out.read a = s.outMem.read a)) ∧
    (s.cre < s.cc + 4098 →
      ∃ t, exec (.hdrRaw x sz) s = .next t ∧ Faulted s .outOfBounds ⟨.inputRead, s.cre⟩ t) ∧
    (∀ c, s.cc + 4098 ≤ s.cre → s.placed (s.cc + 2) 4096 → s.params.outCapacity = some c → c < s.dc + 4096 →
      ∃ t, exec (.hdrRaw x sz) s = .next t ∧ Faulted s .outOfBounds ⟨.outputWrite, max s.dc c⟩ t)

/-- R141, FLAG in every state: it writes `flagByte`, `bitIndex`, `compressedCurrent` and `phase`, and nothing else; it
raises nothing. -/
def Obligations.FlagElement : Prop :=
  ∀ (f : Byte) (s : State), exec (.flag f) s = .next { s with fb := f, cc := s.cc + 1, bi := 0, phase := .token }

/-- R143, LIT: with room in OUT the byte is appended at `dc`, the three counters advance and nothing else changes;
without room it raises OutOfBounds(OutputWrite, dc). -/
def Obligations.LiteralElement : Prop :=
  ∀ (b : Byte) (s : State),
    (s.hasRoom 1 → ∃ out, exec (.lit b) s = .next { s with
        outMem := out, cc := s.cc + 1, dc := s.dc + 1, bi := s.bi + 1 } ∧
      out.read s.dc = some b ∧ ∀ a, a ≠ s.dc → out.read a = s.outMem.read a) ∧
    (¬ s.hasRoom 1 → ∃ t, exec (.lit b) s = .next t ∧ Faulted s .outOfBounds ⟨.outputWrite, s.dc⟩ t)

/-- R144 and R145, COPY_B4 to COPY_B15 (the rows `copyFields` lists), `o` and `l` being the fields: at a position of
the row's split, with the token inside the chunk, the source in OUT and room for the result, `l + 3` bytes are appended
that repeat the last `o + 1` bytes cyclically, the three counters advance and nothing else changes, also where the
source lies before the chunk's start (R147) and whatever the length (R148). Otherwise it raises, in the order of R144:
OutOfBounds(InputRead, ce), UndefinedHelpData(cc), OutOfBounds(OutputRead, offset), OutOfBounds(OutputWrite, a). -/
def Obligations.CopyElement : Prop :=
  ∀ (i : Instr) (n o l : Nat) (s : State), copyFields i = some (n, o, l) →
    (s.cc + 2 ≤ s.ce → InSplit n (s.dc - s.dcs) → o + 1 ≤ s.dc →
      (∀ a, s.dc - (o + 1) ≤ a → a < s.dc → (s.outMem.read a).isSome) →
      (s.hasRoom (l + 3) →
        ∃ out, exec i s = .next { s with
            outMem := out, dc := s.dc + (l + 3), cc := s.cc + 2, bi := s.bi + 1 } ∧
          (∀ k, k < l + 3 → out.read (s.dc + k) = s.outMem.read (s.dc - (o + 1) + k % (o + 1))) ∧
          (∀ a, a < s.dc ∨ s.dc + (l + 3) ≤ a → out.read a = s.outMem.read a)) ∧
      (∀ c, s.params.outCapacity = some c → c < s.dc + (l + 3) →
        ∃ t, exec i s = .next t ∧ Faulted s .outOfBounds ⟨.outputWrite, max s.dc c⟩ t)) ∧
    (s.ce < s.cc + 2 → ∃ t, exec i s = .next t ∧ Faulted s .outOfBounds ⟨.inputRead, s.ce⟩ t) ∧
    (s.cc + 2 ≤ s.ce → s.dc = s.dcs → ∃ t, exec i s = .next t ∧ Faulted s .undefinedHelpData ⟨.none, s.cc⟩ t) ∧
    (s.cc + 2 ≤ s.ce → InSplit n (s.dc - s.dcs) → s.dc < o + 1 →
      ∃ t, exec i s = .next t ∧ Faulted s .outOfBounds ⟨.outputRead, o + 1⟩ t)

/-- The frame that every element shares, faults included: the parameters, IN, `IN_LEN` and the host's pending acts are
as they were (R21, R37, R38, R62). -/
def Obligations.ElementsKeepInputAndHost : Prop :=
  ∀ (i : Instr) (s t : State), exec i s = .next t →
    t.params = s.params ∧ t.inMem = s.inMem ∧ t.inLen = s.inLen ∧ t.host = s.host

/-! ## The sequencer (44_engine.md rule R184) -/

/-- A step runs the decoded element: in each phase and under each condition of R80 and R184, with the element's bytes in
IN where the phase reads them, the step is `exec` of the element they decode to. The step adds nothing. -/
def Obligations.StepRunsTheDecodedElement : Prop :=
  ∀ (s : State) (i : Instr), s.host = [] → s.inMem.wf = true →
    (∀ b, s.phase = .sig → 1 ≤ s.cre → s.inMem.read 0 = some b → decode .signature [b] = .ok (i, []) →
      step s = exec i s) ∧
    (∀ lo hi, s.phase = .chunk → s.cc + 2 ≤ s.cre → s.inMem.read s.cc = some lo →
      s.inMem.read (s.cc + 1) = some hi → decode .chunk [lo, hi] = .ok (i, []) → step s = exec i s) ∧
    (∀ b, s.phase = .group → s.cc < s.ce → s.inMem.read s.cc = some b → decode .group [b] = .ok (i, []) →
      step s = exec i s) ∧
    (∀ b, s.phase = .token → s.bi < 8 → s.cc < s.ce → s.fb.getLsbD s.bi = false → s.inMem.read s.cc = some b →
      decode .literal [b] = .ok (i, []) → step s = exec i s) ∧
    (∀ n lo hi, s.phase = .token → s.bi < 8 → s.cc + 2 ≤ s.ce → s.fb.getLsbD s.bi = true →
      4 ≤ n → InSplit n (s.dc - s.dcs) → s.inMem.read s.cc = some lo → s.inMem.read (s.cc + 1) = some hi →
      decode (.copy n) [lo, hi] = .ok (i, []) → step s = exec i s)

/-- R52 and R205 at the step: an element whose bytes do not lie below its limit is not read, and the step raises
OutOfBounds(InputRead, limit): the empty input, a header cut off by the record end, a copy token cut off by the chunk
end. -/
def Obligations.CutOffElementsFault : Prop :=
  ∀ s : State, s.host = [] →
    (s.phase = .sig → s.cre = 0 → ∃ t, step s = .next t ∧ Faulted s .outOfBounds ⟨.inputRead, 0⟩ t) ∧
    (s.phase = .chunk → s.cc + 1 = s.cre → ∃ t, step s = .next t ∧ Faulted s .outOfBounds ⟨.inputRead, s.cre⟩ t) ∧
    (s.phase = .token → s.bi < 8 → s.cc + 1 = s.ce → s.fb.getLsbD s.bi = true →
      ∃ t, step s = .next t ∧ Faulted s .outOfBounds ⟨.inputRead, s.ce⟩ t)

/-- R204 and R125 at the step: a copy token taken before the chunk has decoded a byte raises UndefinedHelpData with the
token's address. This is the spec's own decision D8 (log 10): it says what this spec's hardware does. -/
def Obligations.CopyFirstInItsChunkFaults : Prop :=
  ∀ s : State, s.host = [] → s.phase = .token → s.bi < 8 → s.cc + 2 ≤ s.ce → s.fb.getLsbD s.bi = true →
    s.dc = s.dcs → ∃ t, step s = .next t ∧ Faulted s .undefinedHelpData ⟨.none, s.cc⟩ t

/-- In phase TOKEN with the slots used up or the chunk's end reached, the step takes no token and changes `phase` only
(R146). That with slots left it happens at `cc = ce` exactly is the spec's own inference: "the early stop always happens
at `cc = ce` exactly [derived: from rules R143 and R144]". -/
def Obligations.EndOfGroup : Prop :=
  ∀ s : State, s.host = [] → s.phase = .token → s.bi = 8 ∨ s.ce ≤ s.cc →
    step s = .next { s with phase := .group } ∧ (Inv s → s.bi < 8 → s.cc = s.ce)

/-- In phase GROUP at the chunk's end the step changes `phase` only (R164), before the first group too, which is the
spec's own decision D9 (log 19). That it happens at `cc = ce` exactly is the spec's own inference: "At that moment
`cc = ce` exactly", which R164 marks as derived from R161, R141, R143, R144 and R146. -/
def Obligations.EndOfChunk : Prop :=
  ∀ s : State, s.host = [] → s.phase = .group → s.ce ≤ s.cc →
    step s = .next { s with phase := .chunk } ∧ (Inv s → s.cc = s.ce)

/-- R183 (a): in phase CHUNK at the record's end the run is DONE: `STATUS` is 2, `OUT_LEN` is `dc`, OUT holds exactly
the addresses 0 to `dc - 1`, and `cc = cre`; nothing but `phase` changes. -/
def Obligations.EndOfRun : Prop :=
  ∀ s : State, s.host = [] → s.phase = .chunk → s.cre ≤ s.cc →
    ∃ t, step s = .next t ∧ t = { s with phase := .done } ∧ t.status = 2#2 ∧ t.outLen = s.dc ∧
      (Inv s → Filled t.outMem t.outLen ∧ t.cc = t.cre)

/-- R184, the rows of rest: with no act of the host, IDLE, DONE and FAULT keep the whole state. -/
def Obligations.RestKeepsTheState : Prop :=
  ∀ s : State, s.host = [] → s.phase = .idle ∨ s.phase = .done ∨ s.phase = .fault → step s = .next s

/-! ## Start, reset and the host (10_state.md, 70_reset_and_hazards.md) -/

/-- R36 at power-on: phase IDLE, `STATUS` 0, `FAULT_REASON` 0, `OUT_LEN` 0. -/
def Obligations.ResetState : Prop :=
  State.reset.phase = .idle ∧ State.reset.status = 0#2 ∧ State.reset.faultReason.code = 0#2 ∧
    State.reset.outLen = 0

/-- R230: START written at rest, with a length the implementation accepts, performs the start sequence in one step; IN,
`IN_LEN` and the parameters are as before. -/
def Obligations.StartSequence : Prop :=
  ∀ (s : State) (rest : List HostAct), s.host = .writeStart 1#1 :: rest →
    s.phase = .idle ∨ s.phase = .done ∨ s.phase = .fault → (∀ m, s.params.inLenMax = some m → s.inLen ≤ m) →
    ∃ t, step s = .next t ∧ t.cre = s.inLen ∧ t.outMem = [] ∧ t.dc = 0 ∧ t.faultReason = .none ∧ t.outLen = 0 ∧
      t.phase = .sig ∧ t.status = 1#2 ∧ t.inMem = s.inMem ∧ t.inLen = s.inLen ∧ t.params = s.params ∧
      t.host = rest

/-- R231: what START leaves does not depend on the run before it: two machines at rest that agree on the parameters,
IN, `IN_LEN` and the model's own fields start in the same state. -/
def Obligations.NothingCarriesOver : Prop :=
  ∀ (s s' : State) (rest : List HostAct), s.host = .writeStart 1#1 :: rest → s'.host = s.host →
    s.running = false → s'.running = false → s.params = s'.params → s.inMem = s'.inMem → s.inLen = s'.inLen →
    s.freeIdx = s'.freeIdx → step s = step s'

/-- R33: while a run is in progress a write of START or of `IN_LEN` has no effect: the step is the one the hardware
takes without it. -/
def Obligations.HostWritesInARunAreIgnored : Prop :=
  ∀ (s : State) (rest : List HostAct) (n : Nat) (v : BitVec 1), s.running = true →
    s.host = .writeInLen n :: rest ∨ s.host = .writeStart v :: rest →
    step s = step { s with host := .pass :: rest }

/-- R33 and R233: at rest the host's writes of a byte of IN and of `IN_LEN` do just that. -/
def Obligations.HostWritesAtRest : Prop :=
  ∀ (s : State) (rest : List HostAct), s.running = false →
    (∀ n, s.host = .writeInLen n :: rest → step s = .next { s with host := rest, inLen := n }) ∧
    (∀ x b, s.host = .writeIn x b :: rest → ∃ m, step s = .next { s with host := rest, inMem := m } ∧
      m.read x = some b ∧ ∀ a, a ≠ x → m.read a = s.inMem.read a)

/-- What the model refuses of the host: a write of IN in a run, for which the spec gives no behaviour (U9; log 7), and
START with `IN_LEN` above `IN_LEN_MAX` (D4; log 8). -/
def Obligations.RefusedHostActs : Prop :=
  ∀ (s : State) (rest : List HostAct),
    (∀ x b, s.running = true → s.host = .writeIn x b :: rest → step s = .refused .hostTouchedInput) ∧
    (∀ m, s.running = false → s.host = .writeStart 1#1 :: rest → s.params.inLenMax = some m → m < s.inLen →
      step s = .refused .inLenTooLarge)

/-- R232 with R36: a hardware reset in any state, a run in progress or not, gives phase IDLE with the status registers
0; the parameters are as before. -/
def Obligations.HardwareReset : Prop :=
  ∀ (s : State) (rest : List HostAct), s.host = .hardReset :: rest →
    ∃ t, step s = .next t ∧ t.phase = .idle ∧ t.status = 0#2 ∧ t.faultReason.code = 0#2 ∧ t.outLen = 0 ∧
      t.params = s.params ∧ t.host = rest

/-- R208 and R232: no step leaves FAULT, DONE or IDLE but START and a hardware reset, and a fault's reason and info stay. -/
def Obligations.RestIsLeftOnlyByStartOrReset : Prop :=
  ∀ s t : State, s.running = false → (∀ rest, s.host ≠ .writeStart 1#1 :: rest) →
    (∀ rest, s.host ≠ .hardReset :: rest) → step s = .next t →
    t.phase = s.phase ∧ t.faultReason = s.faultReason ∧ t.faultInfo = s.faultInfo

/-- R33 and R205: the codes the host reads. -/
def Obligations.StatusAndFaultCodes : Prop :=
  (∀ s : State, (s.status = 0#2 ↔ s.phase = .idle) ∧ (s.status = 1#2 ↔ s.running = true) ∧
    (s.status = 2#2 ↔ s.phase = .done) ∧ (s.status = 3#2 ↔ s.phase = .fault)) ∧
  FaultReason.none.code = 0#2 ∧ FaultReason.malformedSignature.code = 1#2 ∧ FaultReason.outOfBounds.code = 2#2 ∧
  FaultReason.undefinedHelpData.code = 3#2 ∧ SubCause.none.code = 0#2 ∧ SubCause.inputRead.code = 1#2 ∧
  SubCause.outputRead.code = 2#2 ∧ SubCause.outputWrite.code = 3#2

/-! ## Whole-machine rules -/

/-- The invariant holds after power-on. -/
def Obligations.ResetSatisfiesTheInvariant : Prop := Inv State.reset

/-- Every step keeps the invariant: canonical buffers, `bitIndex` at most 8, a reason exactly in FAULT, and in a run
the bounds of R22, R24, R25, R27, R29, R54, R124, R161 and R240. -/
def Obligations.StepKeepsTheInvariant : Prop :=
  ∀ s t : State, Inv s → step s = .next t → Inv t

/-- The buffers keep their canonical form from every state, reached or not. -/
def Obligations.StepKeepsBuffersCanonical : Prop :=
  ∀ s t : State, s.inMem.wf = true → s.outMem.wf = true → step s = .next t →
    t.inMem.wf = true ∧ t.outMem.wf = true

/-- R38: the parameters are fixed. -/
def Obligations.ParametersNeverChange : Prop :=
  ∀ s t : State, step s = .next t → t.params = s.params

/-- R124: at every copy token of a compressed chunk `difference` is at most 26626, so `bitCount` is at most 15, the
shift at least 1 and the length mask at least 1. -/
def Obligations.SplitNeverExceedsFifteen : Prop :=
  ∀ s : State, Inv s → s.phase = .token →
    s.dc - s.dcs ≤ 26626 ∧ ∀ hd, computeHelpData (s.dc - s.dcs) = some hd →
      hd.bitCount ≤ 15 ∧ 1 ≤ 16 - hd.bitCount ∧ 1 ≤ hd.lengthMask.toNat

/-- A run whose input the host has placed goes on: every step of it answers a next state. So the stops of the model
(a byte not placed, a byte of OUT not written, a split above 15) are not met (R55, R124, R145). -/
def Obligations.PlacedRunAlwaysAdvances : Prop :=
  ∀ s : State, Inv s → s.running = true → s.host = [] → s.placed 0 s.cre → ∃ t, step s = .next t

/-- R206: a step of a run that enters FAULT names a reason and a status of 3, and the host's side is as it was. -/
def Obligations.FaultEntryNamesAReason : Prop :=
  ∀ s t : State, s.running = true → step s = .next t → t.phase = .fault →
    t.faultReason ≠ .none ∧ t.status = 3#2 ∧ t.inMem = s.inMem ∧ t.inLen = s.inLen

/-- R21, R24 and R62: in a run IN and `IN_LEN` never change, and outside FAULT neither does `compressedRecordEnd`. -/
def Obligations.InputIsFixedInARun : Prop :=
  ∀ s t : State, s.running = true → (∀ rest, s.host ≠ .hardReset :: rest) → step s = .next t →
    t.inMem = s.inMem ∧ t.inLen = s.inLen ∧ (t.phase ≠ .fault → t.cre = s.cre)

/-- R22 and R27: in a run that does not fault OUT only grows at its end: `decompressedCurrent` does not decrease and no
byte below it is written again. -/
def Obligations.OutputIsOnlyAppended : Prop :=
  ∀ s t : State, s.running = true → (∀ rest, s.host ≠ .hardReset :: rest) → step s = .next t → t.phase ≠ .fault →
    s.dc ≤ t.dc ∧ ∀ a, a < s.dc → t.outMem.read a = s.outMem.read a

/-- R25: from the signature on, and outside FAULT, `compressedCurrent` does not decrease and stays at or below the
record end. -/
def Obligations.ReadCursorNeverDecreases : Prop :=
  ∀ s t : State, Inv s → s.running = true → s.phase ≠ .sig → (∀ rest, s.host ≠ .hardReset :: rest) →
    step s = .next t → t.phase ≠ .fault → s.cc ≤ t.cc ∧ t.cc ≤ t.cre

/-- R240: a run that ends in DONE has at most 2049 output bytes for each input byte after the signature. -/
def Obligations.OutputSizeIsBounded : Prop :=
  ∀ s t : State, Inv s → s.host = [] → s.phase = .chunk → step s = .next t → t.phase = .done →
    t.outLen ≤ 2049 * (t.cre - 1)

/-- R186, one step: every step of a run makes the count of steps left smaller, whatever the host does. -/
def Obligations.EveryStepShortensTheRun : Prop :=
  ∀ s t : State, Inv s → s.running = true → (∀ rest, s.host ≠ .hardReset :: rest) → step s = .next t →
    t.stepsLeft < s.stepsLeft

/-- R186: every run ends in DONE or FAULT, within `3 * IN_LEN + 3` steps from the signature. -/
def Obligations.EveryRunEnds : Prop :=
  ∀ s : State, Inv s → s.phase = .sig → s.host = [] → s.placed 0 s.cre →
    ∃ (n : Nat) (t : State), n ≤ 3 * s.inLen + 3 ∧ Host.Core.run core n s = .next t ∧
      (t.phase = .done ∨ t.phase = .fault)

/-- R167 and R187: what a step reads of IN. SIG reads byte 0; a chunk start reads at most the header and 4096 bytes
after it and nothing at or past `cre`; in a compressed chunk a step reads at most two bytes and nothing at or past
`ce`. Changing IN anywhere else changes nothing but IN. -/
def Obligations.ReadsStayInTheirBounds : Prop :=
  ∀ (s : State) (m : Memory), s.host = [] → s.inMem.wf = true → m.wf = true →
    (s.phase = .sig → SameBetween s.inMem m 0 1) →
    (s.phase = .chunk → SameBetween s.inMem m s.cc (min s.cre (s.cc + 4098))) →
    (s.phase = .group ∨ s.phase = .token → SameBetween s.inMem m s.cc (min s.ce (s.cc + 2))) →
    step { s with inMem := m } = mapNext (fun t => { t with inMem := m }) (step s)

/-- R8 and D2: on an implementation whose cursors are wide enough for what it accepts, no step makes a cursor that its
register cannot hold; free values included. -/
def Obligations.CursorsFitTheirWidth : Prop :=
  ∀ s t : State, Inv s → s.widthAdequate → s.cursorsFit → step s = .next t → t.cursorsFit

/-- R185: the machine computes the listing. From the state at the signature, with the input placed, the steps of the
sequencer reach, within `3 * IN_LEN + 3` of them, the result `decompress` gives for that input: DONE with exactly its
output, or FAULT with its reason and info. -/
def Obligations.RunComputesTheListing : Prop :=
  ∀ (s : State) (inp : List Byte), s.phase = .sig → s.host = [] → s.inMem.wf = true →
    (∀ a, a < inp.length → s.inMem.read a = inp[a]?) → s.cre = inp.length → s.dc = 0 → s.outMem = [] →
    ∃ (n : Nat) (t : State), n ≤ 3 * inp.length + 3 ∧ Host.Core.run core n s = .next t ∧
      t.shows (decompress s.params.outCapacity inp)
end

