-- ==== Sys2Proof/Laws/State.lean ====
section
/-! SUPPORT. One lemma for each field of State and each named update of Machine/Ops.lean. -/

namespace Sys2Proof.Machine

open Sys2Proof

/-! ### `State.enterPhase` -/

@[simp] theorem State.enterPhase_params (s : State) (p : Phase) : (s.enterPhase p).params = s.params := rfl
@[simp] theorem State.enterPhase_inMem (s : State) (p : Phase) : (s.enterPhase p).inMem = s.inMem := rfl
@[simp] theorem State.enterPhase_inLen (s : State) (p : Phase) : (s.enterPhase p).inLen = s.inLen := rfl
@[simp] theorem State.enterPhase_outMem (s : State) (p : Phase) : (s.enterPhase p).outMem = s.outMem := rfl
@[simp] theorem State.enterPhase_cre (s : State) (p : Phase) : (s.enterPhase p).cre = s.cre := rfl
@[simp] theorem State.enterPhase_cc (s : State) (p : Phase) : (s.enterPhase p).cc = s.cc := rfl
@[simp] theorem State.enterPhase_ccs (s : State) (p : Phase) : (s.enterPhase p).ccs = s.ccs := rfl
@[simp] theorem State.enterPhase_dc (s : State) (p : Phase) : (s.enterPhase p).dc = s.dc := rfl
@[simp] theorem State.enterPhase_dcs (s : State) (p : Phase) : (s.enterPhase p).dcs = s.dcs := rfl
@[simp] theorem State.enterPhase_ce (s : State) (p : Phase) : (s.enterPhase p).ce = s.ce := rfl
@[simp] theorem State.enterPhase_fb (s : State) (p : Phase) : (s.enterPhase p).fb = s.fb := rfl
@[simp] theorem State.enterPhase_bi (s : State) (p : Phase) : (s.enterPhase p).bi = s.bi := rfl
@[simp] theorem State.enterPhase_phase (s : State) (p : Phase) : (s.enterPhase p).phase = p := rfl
@[simp] theorem State.enterPhase_faultReason (s : State) (p : Phase) : (s.enterPhase p).faultReason = s.faultReason := rfl
@[simp] theorem State.enterPhase_faultInfo (s : State) (p : Phase) : (s.enterPhase p).faultInfo = s.faultInfo := rfl
@[simp] theorem State.enterPhase_host (s : State) (p : Phase) : (s.enterPhase p).host = s.host := rfl
@[simp] theorem State.enterPhase_freeIdx (s : State) (p : Phase) : (s.enterPhase p).freeIdx = s.freeIdx := rfl

/-! ### `State.passSignature` -/

@[simp] theorem State.passSignature_params (s : State) : (s.passSignature).params = s.params := rfl
@[simp] theorem State.passSignature_inMem (s : State) : (s.passSignature).inMem = s.inMem := rfl
@[simp] theorem State.passSignature_inLen (s : State) : (s.passSignature).inLen = s.inLen := rfl
@[simp] theorem State.passSignature_outMem (s : State) : (s.passSignature).outMem = s.outMem := rfl
@[simp] theorem State.passSignature_cre (s : State) : (s.passSignature).cre = s.cre := rfl
@[simp] theorem State.passSignature_cc (s : State) : (s.passSignature).cc = 1 := rfl
@[simp] theorem State.passSignature_ccs (s : State) : (s.passSignature).ccs = s.ccs := rfl
@[simp] theorem State.passSignature_dc (s : State) : (s.passSignature).dc = s.dc := rfl
@[simp] theorem State.passSignature_dcs (s : State) : (s.passSignature).dcs = s.dcs := rfl
@[simp] theorem State.passSignature_ce (s : State) : (s.passSignature).ce = s.ce := rfl
@[simp] theorem State.passSignature_fb (s : State) : (s.passSignature).fb = s.fb := rfl
@[simp] theorem State.passSignature_bi (s : State) : (s.passSignature).bi = s.bi := rfl
@[simp] theorem State.passSignature_phase (s : State) : (s.passSignature).phase = .chunk := rfl
@[simp] theorem State.passSignature_faultReason (s : State) : (s.passSignature).faultReason = s.faultReason := rfl
@[simp] theorem State.passSignature_faultInfo (s : State) : (s.passSignature).faultInfo = s.faultInfo := rfl
@[simp] theorem State.passSignature_host (s : State) : (s.passSignature).host = s.host := rfl
@[simp] theorem State.passSignature_freeIdx (s : State) : (s.passSignature).freeIdx = s.freeIdx := rfl

/-! ### `State.openChunk` -/

@[simp] theorem State.openChunk_params (s : State) (n : Nat) : (s.openChunk n).params = s.params := rfl
@[simp] theorem State.openChunk_inMem (s : State) (n : Nat) : (s.openChunk n).inMem = s.inMem := rfl
@[simp] theorem State.openChunk_inLen (s : State) (n : Nat) : (s.openChunk n).inLen = s.inLen := rfl
@[simp] theorem State.openChunk_outMem (s : State) (n : Nat) : (s.openChunk n).outMem = s.outMem := rfl
@[simp] theorem State.openChunk_cre (s : State) (n : Nat) : (s.openChunk n).cre = s.cre := rfl
@[simp] theorem State.openChunk_cc (s : State) (n : Nat) : (s.openChunk n).cc = s.cc + 2 := rfl
@[simp] theorem State.openChunk_ccs (s : State) (n : Nat) : (s.openChunk n).ccs = s.cc := rfl
@[simp] theorem State.openChunk_dc (s : State) (n : Nat) : (s.openChunk n).dc = s.dc := rfl
@[simp] theorem State.openChunk_dcs (s : State) (n : Nat) : (s.openChunk n).dcs = s.dc := rfl
@[simp] theorem State.openChunk_ce (s : State) (n : Nat) : (s.openChunk n).ce = min s.cre (s.cc + n) := rfl
@[simp] theorem State.openChunk_fb (s : State) (n : Nat) : (s.openChunk n).fb = s.fb := rfl
@[simp] theorem State.openChunk_bi (s : State) (n : Nat) : (s.openChunk n).bi = s.bi := rfl
@[simp] theorem State.openChunk_phase (s : State) (n : Nat) : (s.openChunk n).phase = s.phase := rfl
@[simp] theorem State.openChunk_faultReason (s : State) (n : Nat) : (s.openChunk n).faultReason = s.faultReason := rfl
@[simp] theorem State.openChunk_faultInfo (s : State) (n : Nat) : (s.openChunk n).faultInfo = s.faultInfo := rfl
@[simp] theorem State.openChunk_host (s : State) (n : Nat) : (s.openChunk n).host = s.host := rfl
@[simp] theorem State.openChunk_freeIdx (s : State) (n : Nat) : (s.openChunk n).freeIdx = s.freeIdx := rfl

/-! ### `State.takeFlag` -/

@[simp] theorem State.takeFlag_params (s : State) (f : Byte) : (s.takeFlag f).params = s.params := rfl
@[simp] theorem State.takeFlag_inMem (s : State) (f : Byte) : (s.takeFlag f).inMem = s.inMem := rfl
@[simp] theorem State.takeFlag_inLen (s : State) (f : Byte) : (s.takeFlag f).inLen = s.inLen := rfl
@[simp] theorem State.takeFlag_outMem (s : State) (f : Byte) : (s.takeFlag f).outMem = s.outMem := rfl
@[simp] theorem State.takeFlag_cre (s : State) (f : Byte) : (s.takeFlag f).cre = s.cre := rfl
@[simp] theorem State.takeFlag_cc (s : State) (f : Byte) : (s.takeFlag f).cc = s.cc + 1 := rfl
@[simp] theorem State.takeFlag_ccs (s : State) (f : Byte) : (s.takeFlag f).ccs = s.ccs := rfl
@[simp] theorem State.takeFlag_dc (s : State) (f : Byte) : (s.takeFlag f).dc = s.dc := rfl
@[simp] theorem State.takeFlag_dcs (s : State) (f : Byte) : (s.takeFlag f).dcs = s.dcs := rfl
@[simp] theorem State.takeFlag_ce (s : State) (f : Byte) : (s.takeFlag f).ce = s.ce := rfl
@[simp] theorem State.takeFlag_fb (s : State) (f : Byte) : (s.takeFlag f).fb = f := rfl
@[simp] theorem State.takeFlag_bi (s : State) (f : Byte) : (s.takeFlag f).bi = 0 := rfl
@[simp] theorem State.takeFlag_phase (s : State) (f : Byte) : (s.takeFlag f).phase = .token := rfl
@[simp] theorem State.takeFlag_faultReason (s : State) (f : Byte) : (s.takeFlag f).faultReason = s.faultReason := rfl
@[simp] theorem State.takeFlag_faultInfo (s : State) (f : Byte) : (s.takeFlag f).faultInfo = s.faultInfo := rfl
@[simp] theorem State.takeFlag_host (s : State) (f : Byte) : (s.takeFlag f).host = s.host := rfl
@[simp] theorem State.takeFlag_freeIdx (s : State) (f : Byte) : (s.takeFlag f).freeIdx = s.freeIdx := rfl

/-! ### `State.tookToken` -/

@[simp] theorem State.tookToken_params (s : State) (k n : Nat) (m : Memory) : (s.tookToken k n m).params = s.params := rfl
@[simp] theorem State.tookToken_inMem (s : State) (k n : Nat) (m : Memory) : (s.tookToken k n m).inMem = s.inMem := rfl
@[simp] theorem State.tookToken_inLen (s : State) (k n : Nat) (m : Memory) : (s.tookToken k n m).inLen = s.inLen := rfl
@[simp] theorem State.tookToken_outMem (s : State) (k n : Nat) (m : Memory) : (s.tookToken k n m).outMem = m := rfl
@[simp] theorem State.tookToken_cre (s : State) (k n : Nat) (m : Memory) : (s.tookToken k n m).cre = s.cre := rfl
@[simp] theorem State.tookToken_cc (s : State) (k n : Nat) (m : Memory) : (s.tookToken k n m).cc = s.cc + k := rfl
@[simp] theorem State.tookToken_ccs (s : State) (k n : Nat) (m : Memory) : (s.tookToken k n m).ccs = s.ccs := rfl
@[simp] theorem State.tookToken_dc (s : State) (k n : Nat) (m : Memory) : (s.tookToken k n m).dc = s.dc + n := rfl
@[simp] theorem State.tookToken_dcs (s : State) (k n : Nat) (m : Memory) : (s.tookToken k n m).dcs = s.dcs := rfl
@[simp] theorem State.tookToken_ce (s : State) (k n : Nat) (m : Memory) : (s.tookToken k n m).ce = s.ce := rfl
@[simp] theorem State.tookToken_fb (s : State) (k n : Nat) (m : Memory) : (s.tookToken k n m).fb = s.fb := rfl
@[simp] theorem State.tookToken_bi (s : State) (k n : Nat) (m : Memory) : (s.tookToken k n m).bi = s.bi + 1 := rfl
@[simp] theorem State.tookToken_phase (s : State) (k n : Nat) (m : Memory) : (s.tookToken k n m).phase = s.phase := rfl
@[simp] theorem State.tookToken_faultReason (s : State) (k n : Nat) (m : Memory) : (s.tookToken k n m).faultReason = s.faultReason := rfl
@[simp] theorem State.tookToken_faultInfo (s : State) (k n : Nat) (m : Memory) : (s.tookToken k n m).faultInfo = s.faultInfo := rfl
@[simp] theorem State.tookToken_host (s : State) (k n : Nat) (m : Memory) : (s.tookToken k n m).host = s.host := rfl
@[simp] theorem State.tookToken_freeIdx (s : State) (k n : Nat) (m : Memory) : (s.tookToken k n m).freeIdx = s.freeIdx := rfl

/-! ### `State.tookPayload` -/

@[simp] theorem State.tookPayload_params (s : State) (m : Memory) : (s.tookPayload m).params = s.params := rfl
@[simp] theorem State.tookPayload_inMem (s : State) (m : Memory) : (s.tookPayload m).inMem = s.inMem := rfl
@[simp] theorem State.tookPayload_inLen (s : State) (m : Memory) : (s.tookPayload m).inLen = s.inLen := rfl
@[simp] theorem State.tookPayload_outMem (s : State) (m : Memory) : (s.tookPayload m).outMem = m := rfl
@[simp] theorem State.tookPayload_cre (s : State) (m : Memory) : (s.tookPayload m).cre = s.cre := rfl
@[simp] theorem State.tookPayload_cc (s : State) (m : Memory) : (s.tookPayload m).cc = s.cc + 4096 := rfl
@[simp] theorem State.tookPayload_ccs (s : State) (m : Memory) : (s.tookPayload m).ccs = s.ccs := rfl
@[simp] theorem State.tookPayload_dc (s : State) (m : Memory) : (s.tookPayload m).dc = s.dc + 4096 := rfl
@[simp] theorem State.tookPayload_dcs (s : State) (m : Memory) : (s.tookPayload m).dcs = s.dcs := rfl
@[simp] theorem State.tookPayload_ce (s : State) (m : Memory) : (s.tookPayload m).ce = s.ce := rfl
@[simp] theorem State.tookPayload_fb (s : State) (m : Memory) : (s.tookPayload m).fb = s.fb := rfl
@[simp] theorem State.tookPayload_bi (s : State) (m : Memory) : (s.tookPayload m).bi = s.bi := rfl
@[simp] theorem State.tookPayload_phase (s : State) (m : Memory) : (s.tookPayload m).phase = .chunk := rfl
@[simp] theorem State.tookPayload_faultReason (s : State) (m : Memory) : (s.tookPayload m).faultReason = s.faultReason := rfl
@[simp] theorem State.tookPayload_faultInfo (s : State) (m : Memory) : (s.tookPayload m).faultInfo = s.faultInfo := rfl
@[simp] theorem State.tookPayload_host (s : State) (m : Memory) : (s.tookPayload m).host = s.host := rfl
@[simp] theorem State.tookPayload_freeIdx (s : State) (m : Memory) : (s.tookPayload m).freeIdx = s.freeIdx := rfl

/-! ### `State.raise` -/

@[simp] theorem State.raise_params (s : State) (r : FaultReason) (i : FaultInfo) : (s.raise r i).params = s.params := rfl
@[simp] theorem State.raise_inMem (s : State) (r : FaultReason) (i : FaultInfo) : (s.raise r i).inMem = s.inMem := rfl
@[simp] theorem State.raise_inLen (s : State) (r : FaultReason) (i : FaultInfo) : (s.raise r i).inLen = s.inLen := rfl
@[simp] theorem State.raise_outMem (s : State) (r : FaultReason) (i : FaultInfo) : (s.raise r i).outMem = s.freeOut (s.freeIdx + 6) := rfl
@[simp] theorem State.raise_cre (s : State) (r : FaultReason) (i : FaultInfo) : (s.raise r i).cre = s.freeCursor (s.freeIdx + 7) := rfl
@[simp] theorem State.raise_cc (s : State) (r : FaultReason) (i : FaultInfo) : (s.raise r i).cc = s.freeCursor s.freeIdx := rfl
@[simp] theorem State.raise_ccs (s : State) (r : FaultReason) (i : FaultInfo) : (s.raise r i).ccs = s.freeCursor (s.freeIdx + 1) := rfl
@[simp] theorem State.raise_dc (s : State) (r : FaultReason) (i : FaultInfo) : (s.raise r i).dc = s.freeCursor (s.freeIdx + 8) := rfl
@[simp] theorem State.raise_dcs (s : State) (r : FaultReason) (i : FaultInfo) : (s.raise r i).dcs = s.freeCursor (s.freeIdx + 2) := rfl
@[simp] theorem State.raise_ce (s : State) (r : FaultReason) (i : FaultInfo) : (s.raise r i).ce = s.freeCursor (s.freeIdx + 3) := rfl
@[simp] theorem State.raise_fb (s : State) (r : FaultReason) (i : FaultInfo) : (s.raise r i).fb = Config.freeByte (s.freeIdx + 4) := rfl
@[simp] theorem State.raise_bi (s : State) (r : FaultReason) (i : FaultInfo) : (s.raise r i).bi = Config.freeNat (s.freeIdx + 5) % 9 := rfl
@[simp] theorem State.raise_phase (s : State) (r : FaultReason) (i : FaultInfo) : (s.raise r i).phase = .fault := rfl
@[simp] theorem State.raise_faultReason (s : State) (r : FaultReason) (i : FaultInfo) : (s.raise r i).faultReason = r := rfl
@[simp] theorem State.raise_faultInfo (s : State) (r : FaultReason) (i : FaultInfo) : (s.raise r i).faultInfo = i := rfl
@[simp] theorem State.raise_host (s : State) (r : FaultReason) (i : FaultInfo) : (s.raise r i).host = s.host := rfl
@[simp] theorem State.raise_freeIdx (s : State) (r : FaultReason) (i : FaultInfo) : (s.raise r i).freeIdx = s.freeIdx + 9 := rfl

/-! ### `State.startRun` -/

@[simp] theorem State.startRun_params (s : State) : (s.startRun).params = s.params := rfl
@[simp] theorem State.startRun_inMem (s : State) : (s.startRun).inMem = s.inMem := rfl
@[simp] theorem State.startRun_inLen (s : State) : (s.startRun).inLen = s.inLen := rfl
@[simp] theorem State.startRun_outMem (s : State) : (s.startRun).outMem = [] := rfl
@[simp] theorem State.startRun_cre (s : State) : (s.startRun).cre = s.inLen := rfl
@[simp] theorem State.startRun_cc (s : State) : (s.startRun).cc = s.freeCursor s.freeIdx := rfl
@[simp] theorem State.startRun_ccs (s : State) : (s.startRun).ccs = s.freeCursor (s.freeIdx + 1) := rfl
@[simp] theorem State.startRun_dc (s : State) : (s.startRun).dc = 0 := rfl
@[simp] theorem State.startRun_dcs (s : State) : (s.startRun).dcs = s.freeCursor (s.freeIdx + 2) := rfl
@[simp] theorem State.startRun_ce (s : State) : (s.startRun).ce = s.freeCursor (s.freeIdx + 3) := rfl
@[simp] theorem State.startRun_fb (s : State) : (s.startRun).fb = Config.freeByte (s.freeIdx + 4) := rfl
@[simp] theorem State.startRun_bi (s : State) : (s.startRun).bi = Config.freeNat (s.freeIdx + 5) % 9 := rfl
@[simp] theorem State.startRun_phase (s : State) : (s.startRun).phase = .sig := rfl
@[simp] theorem State.startRun_faultReason (s : State) : (s.startRun).faultReason = .none := rfl
@[simp] theorem State.startRun_faultInfo (s : State) : (s.startRun).faultInfo = freeFaultInfo (s.freeIdx + 6) := rfl
@[simp] theorem State.startRun_host (s : State) : (s.startRun).host = s.host := rfl
@[simp] theorem State.startRun_freeIdx (s : State) : (s.startRun).freeIdx = s.freeIdx + 8 := rfl

/-! ### `State.hardReset` -/

@[simp] theorem State.hardReset_params (s : State) : (s.hardReset).params = s.params := rfl
@[simp] theorem State.hardReset_inMem (s : State) : (s.hardReset).inMem = Memory.ofCells (Config.freeCells (s.freeIdx + 9)) := rfl
@[simp] theorem State.hardReset_inLen (s : State) : (s.hardReset).inLen = s.freeCursor (s.freeIdx + 10) := rfl
@[simp] theorem State.hardReset_outMem (s : State) : (s.hardReset).outMem = s.freeOut (s.freeIdx + 6) := rfl
@[simp] theorem State.hardReset_cre (s : State) : (s.hardReset).cre = s.freeCursor (s.freeIdx + 7) := rfl
@[simp] theorem State.hardReset_cc (s : State) : (s.hardReset).cc = s.freeCursor s.freeIdx := rfl
@[simp] theorem State.hardReset_ccs (s : State) : (s.hardReset).ccs = s.freeCursor (s.freeIdx + 1) := rfl
@[simp] theorem State.hardReset_dc (s : State) : (s.hardReset).dc = s.freeCursor (s.freeIdx + 8) := rfl
@[simp] theorem State.hardReset_dcs (s : State) : (s.hardReset).dcs = s.freeCursor (s.freeIdx + 2) := rfl
@[simp] theorem State.hardReset_ce (s : State) : (s.hardReset).ce = s.freeCursor (s.freeIdx + 3) := rfl
@[simp] theorem State.hardReset_fb (s : State) : (s.hardReset).fb = Config.freeByte (s.freeIdx + 4) := rfl
@[simp] theorem State.hardReset_bi (s : State) : (s.hardReset).bi = Config.freeNat (s.freeIdx + 5) % 9 := rfl
@[simp] theorem State.hardReset_phase (s : State) : (s.hardReset).phase = .idle := rfl
@[simp] theorem State.hardReset_faultReason (s : State) : (s.hardReset).faultReason = .none := rfl
@[simp] theorem State.hardReset_faultInfo (s : State) : (s.hardReset).faultInfo = freeFaultInfo (s.freeIdx + 11) := rfl
@[simp] theorem State.hardReset_host (s : State) : (s.hardReset).host = s.host := rfl
@[simp] theorem State.hardReset_freeIdx (s : State) : (s.hardReset).freeIdx = s.freeIdx + 13 := rfl

end Sys2Proof.Machine
end

