-- ==== Sys2Proof/Laws/Memory.lean ====
section
/-! SUPPORT. The laws of the buffers: every operation keeps the canonical form; a read after a write; byte strings. -/

namespace Sys2Proof.Machine

open Sys2Proof

theorem Memory.wf_iff_pairwise : ∀ m : Memory, m.wf = true ↔ m.Pairwise (fun c d => c.1 < d.1)
  | [] => by simp [Memory.wf]
  | [c] => by simp [Memory.wf]
  | c :: d :: m => by
    have ih := Memory.wf_iff_pairwise (d :: m)
    simp only [Memory.wf, Bool.and_eq_true, decide_eq_true_eq, ih, List.pairwise_cons, List.mem_cons,
      forall_eq_or_imp]
    constructor
    · rintro ⟨hcd, hd, hm⟩
      exact ⟨⟨hcd, fun e he => lt_trans hcd (hd e he)⟩, hd, hm⟩
    · rintro ⟨⟨hcd, -⟩, hd, hm⟩
      exact ⟨hcd, hd, hm⟩

theorem Memory.wf_cons (c : Host.Cell) (m : Memory) :
    Memory.wf (c :: m) = true ↔ (∀ d ∈ m, c.1 < d.1) ∧ m.wf = true := by
  simp [Memory.wf_iff_pairwise]

/-! ### One byte -/

@[simp] theorem Memory.read_nil (a : Nat) : Memory.read [] a = none := rfl

theorem Memory.read_cons (c : Host.Cell) (m : Memory) (a : Nat) :
    Memory.read (c :: m) a = if c.1 = a then some c.2 else m.read a := rfl

theorem Memory.read_eq_none {m : Memory} {a : Nat} (h : ∀ c ∈ m, c.1 ≠ a) : m.read a = none := by
  induction m with
  | nil => rfl
  | cons c m ih =>
    rw [Memory.read_cons, if_neg (h c (by simp))]
    exact ih fun d hd => h d (by simp [hd])

theorem Memory.isSome_read_iff (m : Memory) (a : Nat) : (m.read a).isSome ↔ a ∈ m.map Prod.fst := by
  induction m with
  | nil => simp
  | cons c m ih =>
    rw [Memory.read_cons, List.map_cons, List.mem_cons]
    by_cases h : c.1 = a
    · simp [h]
    · simp [h, ih, Ne.symm h]

theorem Memory.read_append (m m' : Memory) (a : Nat) :
    Memory.read (m ++ m') a = (m.read a).or (m'.read a) := by
  induction m with
  | nil => simp
  | cons c m ih => by_cases h : c.1 = a <;> simp [Memory.read_cons, h, ih]

theorem Memory.read_filter (p : Nat → Bool) (m : Memory) (a : Nat) :
    Memory.read (m.filter fun c => p c.1) a = if p a then m.read a else none := by
  induction m with
  | nil => simp
  | cons c m ih =>
    by_cases hp : p c.1 <;> by_cases h : c.1 = a <;>
      simp_all [Memory.read_cons]

@[simp] theorem Memory.read_write_same (m : Memory) (a : Nat) (b : Byte) : (m.write a b).read a = some b := by
  induction m with
  | nil => simp [Memory.write, Memory.read_cons]
  | cons c m ih =>
    unfold Memory.write
    split
    · rw [Memory.read_cons, if_neg (by omega), ih]
    · split <;> simp [Memory.read_cons]

theorem Memory.read_write_ne (m : Memory) {a x : Nat} (b : Byte) (h : x ≠ a) :
    (m.write a b).read x = m.read x := by
  induction m with
  | nil => simp [Memory.write, Memory.read_cons, Ne.symm h]
  | cons c m ih =>
    unfold Memory.write
    split
    · simp [Memory.read_cons, ih]
    · split
      · rename_i h2
        simp [Memory.read_cons, Ne.symm h, h2]
      · simp [Memory.read_cons, Ne.symm h]

theorem Memory.mem_write {m : Memory} {a : Nat} {b : Byte} {c : Host.Cell} (h : c ∈ m.write a b) :
    c = (a, b) ∨ c ∈ m := by
  induction m with
  | nil => simpa [Memory.write] using h
  | cons d m ih =>
    unfold Memory.write at h
    split at h
    · rcases List.mem_cons.1 h with rfl | h
      · simp
      · rcases ih h with h | h <;> simp [h]
    · split at h <;> rcases List.mem_cons.1 h with h | h <;> simp_all

/-- A write keeps the canonical form. -/
theorem Memory.wf_write {m : Memory} (h : m.wf = true) (a : Nat) (b : Byte) : (m.write a b).wf = true := by
  induction m with
  | nil => rfl
  | cons c m ih =>
    rw [Memory.wf_cons] at h
    unfold Memory.write
    split
    · rename_i hc
      rw [Memory.wf_cons]
      refine ⟨fun d hd => ?_, ih h.2⟩
      rcases Memory.mem_write hd with rfl | hd
      · exact hc
      · exact h.1 d hd
    · split
      · rename_i hc
        rw [Memory.wf_cons]
        exact ⟨fun d hd => hc ▸ h.1 d hd, h.2⟩
      · rw [Memory.wf_cons, Memory.wf_cons]
        refine ⟨fun d hd => ?_, h⟩
        rcases List.mem_cons.1 hd with rfl | hd
        · simp only; omega
        · have := h.1 d hd
          simp only; omega

theorem Memory.write_past_end {m : Memory} {a : Nat} (b : Byte) (h : ∀ c ∈ m, c.1 < a) :
    m.write a b = m ++ [(a, b)] := by
  induction m with
  | nil => rfl
  | cons c m ih =>
    simp only [Memory.write, if_pos (h c (by simp)), List.cons_append]
    rw [ih fun d hd => h d (by simp [hd])]

theorem Memory.wf_ofCells (cells : List Host.Cell) : (Memory.ofCells cells).wf = true := by
  suffices h : ∀ m : Memory, m.wf = true → (cells.foldl (fun m c => m.write c.1 c.2) m).wf = true from h [] rfl
  induction cells with
  | nil => exact fun m hm => hm
  | cons c cells ih => exact fun m hm => ih _ (Memory.wf_write hm _ _)

/-- Two canonical buffers that read alike everywhere are the same data. -/
theorem Memory.ext_read {m m' : Memory} (h : m.wf = true) (h' : m'.wf = true)
    (hr : ∀ a, m.read a = m'.read a) : m = m' := by
  induction m generalizing m' with
  | nil =>
    cases m' with
    | nil => rfl
    | cons d m' => simpa [Memory.read_cons] using hr d.1
  | cons c m ih =>
    cases m' with
    | nil => simpa [Memory.read_cons] using hr c.1
    | cons d m' =>
      rw [Memory.wf_cons] at h h'
      have hc := hr c.1
      have hd := hr d.1
      rcases Nat.lt_trichotomy c.1 d.1 with hlt | heq | hgt
      · rw [Memory.read_cons, if_pos rfl, Memory.read_cons, if_neg (by omega),
          Memory.read_eq_none fun e he => by have := h'.1 e he; omega] at hc
        simp at hc
      · have hcd : c = d := by
          rw [Memory.read_cons, if_pos rfl, Memory.read_cons, if_pos heq.symm] at hc
          exact Prod.ext heq (Option.some.inj hc)
        subst hcd
        congr 1
        refine ih h.2 h'.2 fun a => ?_
        by_cases ha : c.1 = a
        · rw [Memory.read_eq_none fun e he => by have := h.1 e he; omega,
            Memory.read_eq_none fun e he => by have := h'.1 e he; omega]
        · simpa [Memory.read_cons, ha] using hr a
      · rw [Memory.read_cons (c := d), if_pos rfl, Memory.read_cons, if_neg (by omega),
          Memory.read_eq_none fun e he => by have := h.1 e he; omega] at hd
        simp at hd

/-! ### Byte strings -/

theorem Memory.hasBytes_iff {m : Memory} (h : m.wf = true) (a n : Nat) :
    m.hasBytes a n = true ↔ ∀ i, i < n → (m.read (a + i)).isSome := by
  induction m generalizing a n with
  | nil =>
    cases n with
    | zero => simp [Memory.hasBytes]
    | succ n => simpa [Memory.hasBytes] using ⟨0, by omega⟩
  | cons c m ih =>
    cases n with
    | zero => simp [Memory.hasBytes]
    | succ n =>
      rw [Memory.wf_cons] at h
      unfold Memory.hasBytes
      split
      · rename_i hc
        rw [ih h.2]
        refine forall₂_congr fun i _ => ?_
        rw [Memory.read_cons, if_neg (by omega)]
      · split
        · rename_i hc
          rw [ih h.2]
          constructor
          · intro hm i hi
            rcases i with _ | i
            · simp [Memory.read_cons, hc]
            · rw [Memory.read_cons, if_neg (by omega), show a + (i + 1) = a + 1 + i by omega]
              exact hm i (by omega)
          · intro hm i hi
            have := hm (i + 1) (by omega)
            rwa [Memory.read_cons, if_neg (by omega), show a + (i + 1) = a + 1 + i by omega] at this
        · rename_i h1 h2
          simp only [Bool.false_eq_true, false_iff, not_forall]
          refine ⟨0, by omega, ?_⟩
          rw [Memory.read_cons, if_neg (by omega), Memory.read_eq_none fun d hd => by
            have := h.1 d hd
            omega]
          simp

theorem Memory.bytesAt_spec {m : Memory} {a n : Nat} (h : m.hasBytes a n = true) :
    (m.bytesAt a n).length = n ∧ ∀ i, i < n → (m.bytesAt a n)[i]? = m.read (a + i) := by
  induction m generalizing a n with
  | nil =>
    cases n with
    | zero => simp [Memory.bytesAt]
    | succ n => simp [Memory.hasBytes] at h
  | cons c m ih =>
    cases n with
    | zero => simp [Memory.bytesAt]
    | succ n =>
      unfold Memory.hasBytes at h
      unfold Memory.bytesAt
      split at h
      · rename_i hc
        rw [if_pos hc]
        refine ⟨(ih h).1, fun i hi => ?_⟩
        rw [(ih h).2 i hi, Memory.read_cons, if_neg (by omega)]
      · rename_i hlt
        rw [if_neg hlt]
        split at h
        · rename_i hc
          refine ⟨by simp [(ih h).1], fun i hi => ?_⟩
          rcases i with _ | i
          · simp [Memory.read_cons, hc]
          · rw [List.getElem?_cons_succ, (ih h).2 i (by omega), Memory.read_cons, if_neg (by omega),
              show a + (i + 1) = a + 1 + i by omega]
        · simp at h

/-- Everything a read of `n` bytes of a canonical buffer can do. -/
theorem Memory.readBytes_cases {m : Memory} (h : m.wf = true) (a n : Nat) :
    (∃ bs, m.readBytes a n = some bs ∧ bs.length = n ∧ ∀ i, i < n → bs[i]? = m.read (a + i)) ∨
    (m.readBytes a n = none ∧ ∃ i, i < n ∧ m.read (a + i) = none) := by
  unfold Memory.readBytes
  by_cases hb : m.hasBytes a n
  · exact .inl ⟨_, if_pos hb, Memory.bytesAt_spec hb⟩
  · refine .inr ⟨if_neg hb, ?_⟩
    rw [Memory.hasBytes_iff h] at hb
    simpa using hb

theorem Memory.readBytes_spec {m : Memory} {a n : Nat} {bs : List Byte} (h : m.readBytes a n = some bs) :
    bs.length = n ∧ ∀ i, i < n → bs[i]? = m.read (a + i) := by
  unfold Memory.readBytes at h
  split at h
  · rename_i hb
    cases h
    exact Memory.bytesAt_spec hb
  · cases h

theorem Memory.readBytes_of_placed {m : Memory} (h : m.wf = true) {a n : Nat}
    (hp : ∀ i, i < n → (m.read (a + i)).isSome) : ∃ bs, m.readBytes a n = some bs := by
  refine ⟨m.bytesAt a n, if_pos ?_⟩
  exact (Memory.hasBytes_iff h a n).2 hp

theorem map_fst_cellsFrom (a : Nat) (bs : List Byte) :
    (cellsFrom a bs).map Prod.fst = List.range' a bs.length := by
  induction bs generalizing a with
  | nil => rfl
  | cons b bs ih => simp [cellsFrom, ih, List.range'_succ]

theorem read_cellsFrom (a : Nat) (bs : List Byte) (x : Nat) :
    (cellsFrom a bs).read x = if a ≤ x then bs[x - a]? else none := by
  induction bs generalizing a with
  | nil => simp [cellsFrom]
  | cons b bs ih =>
    rw [cellsFrom, Memory.read_cons, ih]
    rcases Nat.lt_trichotomy a x with h | h | h
    · rw [if_neg (by simp only; omega), if_pos (by omega), if_pos (by omega), show x - a = x - (a + 1) + 1 by omega,
        List.getElem?_cons_succ]
    · simp [h]
    · rw [if_neg (by simp only; omega), if_neg (by omega), if_neg (by omega)]

theorem mem_cellsFrom {a : Nat} {bs : List Byte} {c : Host.Cell} (h : c ∈ cellsFrom a bs) :
    a ≤ c.1 ∧ c.1 < a + bs.length := by
  have : c.1 ∈ (cellsFrom a bs).map Prod.fst := List.mem_map_of_mem h
  rw [map_fst_cellsFrom, List.mem_range'_1] at this
  exact this

theorem wf_cellsFrom (a : Nat) (bs : List Byte) : (cellsFrom a bs).wf = true := by
  induction bs generalizing a with
  | nil => rfl
  | cons b bs ih =>
    rw [cellsFrom, Memory.wf_cons]
    exact ⟨fun d hd => by have := (mem_cellsFrom hd).1; simp only; omega, ih _⟩

theorem Memory.wf_writeBytes {m : Memory} (h : m.wf = true) (a : Nat) (bs : List Byte) :
    (m.writeBytes a bs).wf = true := by
  rw [Memory.wf_iff_pairwise] at h ⊢
  have hc := (Memory.wf_iff_pairwise _).1 (wf_cellsFrom a bs)
  unfold Memory.writeBytes
  rw [List.append_assoc, List.pairwise_append, List.pairwise_append]
  refine ⟨h.filter _, ⟨hc, h.filter _, fun c hc d hd => ?_⟩, fun c hc d hd => ?_⟩
  · have h1 := mem_cellsFrom hc
    simp only [List.mem_filter, decide_eq_true_eq] at hd
    omega
  · simp only [List.mem_filter, decide_eq_true_eq] at hc
    rcases List.mem_append.1 hd with hd | hd
    · have h1 := mem_cellsFrom hd
      omega
    · simp only [List.mem_filter, decide_eq_true_eq] at hd
      omega

theorem Memory.read_writeBytes (m : Memory) (a : Nat) (bs : List Byte) (x : Nat) :
    (m.writeBytes a bs).read x = if a ≤ x ∧ x < a + bs.length then bs[x - a]? else m.read x := by
  unfold Memory.writeBytes
  rw [Memory.read_append, Memory.read_append, Memory.read_filter (fun k => decide (k < a)),
    Memory.read_filter (fun k => decide (a + bs.length ≤ k)), read_cellsFrom]
  rcases Nat.lt_or_ge x a with h1 | h1
  · have h2 : ¬ a ≤ x := by omega
    have h3 : ¬ a + bs.length ≤ x := by omega
    simp [h1, h2, h3]
  · have h2 : ¬ x < a := by omega
    rcases Nat.lt_or_ge x (a + bs.length) with h3 | h3
    · have h4 : x - a < bs.length := by omega
      simp [h1, h2, h3, h4]
    · have h4 : ¬ x < a + bs.length := by omega
      have h5 : bs[x - a]? = none := List.getElem?_eq_none (by omega)
      simp [h1, h2, h3, h4, h5]

/-! ### Buffers that hold exactly their first bytes -/

theorem Filled.isSome_iff {m : Memory} {n : Nat} (h : Filled m n) (a : Nat) : (m.read a).isSome ↔ a < n := by
  rw [Memory.isSome_read_iff, h, List.mem_range]

theorem Filled.lt_of_mem {m : Memory} {n : Nat} (h : Filled m n) {c : Host.Cell} (hc : c ∈ m) : c.1 < n := by
  have : c.1 ∈ m.map Prod.fst := List.mem_map_of_mem hc
  rwa [h, List.mem_range] at this

theorem Filled.write {m : Memory} {n : Nat} (h : Filled m n) (b : Byte) : Filled (m.write n b) (n + 1) := by
  unfold Filled
  rw [Memory.write_past_end b fun c hc => h.lt_of_mem hc, List.map_append, h, List.range_succ]
  rfl

theorem filled_cellsFrom (bs : List Byte) : Filled (cellsFrom 0 bs) bs.length := by
  unfold Filled
  rw [map_fst_cellsFrom, List.range_eq_range']

end Sys2Proof.Machine
end

