-- ==== Sys2Proof/Laws/Moves.lean ====
section
/-! SUPPORT. What the byte moves of COPY and HDR_RAW can do. -/

namespace Sys2Proof.Machine

open Sys2Proof

theorem capacityReached_eq_false {capacity : Option Nat} {a : Nat} :
    capacityReached capacity a = false ↔ ∀ c, capacity = some c → a < c := by
  cases capacity <;> simp [capacityReached]

theorem capacityReached_eq_true {capacity : Option Nat} {a : Nat} :
    capacityReached capacity a = true ↔ ∃ c, capacity = some c ∧ c ≤ a := by
  cases capacity <;> simp [capacityReached]

/-- What an append of bytes at `dst` leaves: canonical form, every other address, the capacity respected. -/
structure Appended (capacity : Option Nat) (n dst : Nat) (out out' : Memory) : Prop where
  canonical : out.wf = true → out'.wf = true
  frame : ∀ a, a < dst ∨ dst + n ≤ a → out'.read a = out.read a
  present : ∀ i, i < n → (out'.read (dst + i)).isSome
  room : n ≠ 0 → ∀ c, capacity = some c → dst + n ≤ c
  filled : Filled out dst → Filled out' (dst + n)

theorem Appended.zero (capacity : Option Nat) (dst : Nat) (out : Memory) : Appended capacity 0 dst out out where
  canonical h := h
  frame _ _ := rfl
  present _ h := absurd h (Nat.not_lt_zero _)
  room h := absurd rfl h
  filled h := h

theorem Appended.succ {capacity : Option Nat} {n dst : Nat} {out out' : Memory} {b : Byte}
    (hc : capacityReached capacity dst = false) (h : Appended capacity n (dst + 1) (out.write dst b) out') :
    Appended capacity (n + 1) dst out out' where
  canonical hw := h.canonical (Memory.wf_write hw _ _)
  frame a ha := by rw [h.frame a (by omega), Memory.read_write_ne _ _ (by omega)]
  present i hi := by
    rcases i with _ | i
    · rw [h.frame _ (by omega)]
      simp
    · rw [show dst + (i + 1) = dst + 1 + i by omega]
      exact h.present i (by omega)
  room _ c hcap := by
    have h1 := capacityReached_eq_false.1 hc c hcap
    rcases Nat.eq_zero_or_pos n with rfl | hn
    · exact h1
    · have := h.room (by omega) c hcap
      omega
  filled hf := by
    have := h.filled (hf.write b)
    rwa [show dst + 1 + n = dst + (n + 1) by omega] at this

/-- Where an append stops for want of room: the first address at or past the capacity. -/
def FullAt (capacity : Option Nat) (n dst a : Nat) : Prop :=
  dst ≤ a ∧ a < dst + n ∧ ∃ c, capacity = some c ∧ a = max dst c

/-! ### The moves of a COPY -/

/-- What the moves of a COPY can do: all are made, each byte the one `dst - src` before it (R145); or there is no room
(R54); or a source byte holds no value. -/
theorem copyLoop_cases (capacity : Option Nat) (n src dst : Nat) (out : Memory) (hlt : src < dst) :
    (∃ out', copyLoop capacity n src dst out = .moved out' ∧ Appended capacity n dst out out' ∧
      ∀ i, i < n → out'.read (dst + i) = out'.read (src + i)) ∨
    (∃ a, copyLoop capacity n src dst out = .full a ∧ FullAt capacity n dst a) ∨
    (copyLoop capacity n src dst out = .missing ∧ ¬ Filled out dst) := by
  induction n generalizing src dst out with
  | zero => exact .inl ⟨out, rfl, Appended.zero _ _ _, fun i hi => absurd hi (Nat.not_lt_zero _)⟩
  | succ n ih =>
    unfold copyLoop
    cases hr : out.read src with
    | none =>
      refine .inr (.inr ⟨rfl, fun hf => ?_⟩)
      have := (hf.isSome_iff src).2 hlt
      simp [hr] at this
    | some b =>
      simp only
      by_cases hc : capacityReached capacity dst
      · rw [if_pos hc]
        obtain ⟨c, hcap, hle⟩ := capacityReached_eq_true.1 hc
        exact .inr (.inl ⟨dst, rfl, le_refl _, by omega, c, hcap, by omega⟩)
      · rw [if_neg hc]
        have hc' : capacityReached capacity dst = false := by simpa using hc
        rcases ih (src + 1) (dst + 1) (out.write dst b) (by omega) with ⟨out', h, hap, hb⟩ | ⟨a, h, h1, h2, c, h3, h4⟩ | ⟨h, hf⟩
        · refine .inl ⟨out', h, hap.succ hc', fun i hi => ?_⟩
          rcases i with _ | i
          · rw [Nat.add_zero, Nat.add_zero, hap.frame dst (by omega), hap.frame src (by omega),
              Memory.read_write_same, Memory.read_write_ne _ _ (by omega), hr]
          · rw [show dst + (i + 1) = dst + 1 + i by omega, show src + (i + 1) = src + 1 + i by omega]
            exact hb i (by omega)
        · have := capacityReached_eq_false.1 hc' c h3
          exact .inr (.inl ⟨a, h, by omega, by omega, c, h3, by omega⟩)
        · exact .inr (.inr ⟨h, fun hf' => hf (hf'.write b)⟩)

/-- The moves of a COPY say which bytes of OUT they read: those from `src` on. -/
theorem copyLoop_missing {capacity : Option Nat} {n src dst : Nat} {out : Memory} (hlt : src < dst)
    (h : copyLoop capacity n src dst out = .missing) : ∃ a, src ≤ a ∧ a < dst ∧ out.read a = none := by
  induction n generalizing src dst out with
  | zero => cases h
  | succ n ih =>
    unfold copyLoop at h
    cases hr : out.read src with
    | none => exact ⟨src, le_refl _, hlt, hr⟩
    | some b =>
      simp only [hr] at h
      split at h
      · cases h
      · obtain ⟨a, h1, h2, h3⟩ := ih (by omega) h
        have hne : a ≠ dst := by
          rintro rfl
          simp at h3
        rw [Memory.read_write_ne _ _ hne] at h3
        exact ⟨a, by omega, by omega, h3⟩

/-! ### The moves of a raw chunk -/

/-- What the appends of a raw chunk can do: all are made, in order (R165); or there is no room (R54). -/
theorem appendLoop_cases (capacity : Option Nat) (bs : List Byte) (dst : Nat) (out : Memory) :
    (∃ out', appendLoop capacity bs dst out = .moved out' ∧ Appended capacity bs.length dst out out' ∧
      ∀ i, i < bs.length → out'.read (dst + i) = bs[i]?) ∨
    (∃ a, appendLoop capacity bs dst out = .full a ∧ FullAt capacity bs.length dst a) := by
  induction bs generalizing dst out with
  | nil => exact .inl ⟨out, rfl, Appended.zero _ _ _, fun i hi => absurd hi (Nat.not_lt_zero _)⟩
  | cons b bs ih =>
    unfold appendLoop
    by_cases hc : capacityReached capacity dst
    · rw [if_pos hc]
      obtain ⟨c, hcap, hle⟩ := capacityReached_eq_true.1 hc
      exact .inr ⟨dst, rfl, le_refl _, by simp, c, hcap, by omega⟩
    · rw [if_neg hc]
      have hc' : capacityReached capacity dst = false := by simpa using hc
      rcases ih (dst + 1) (out.write dst b) with ⟨out', h, hap, hb⟩ | ⟨a, h, h1, h2, c, h3, h4⟩
      · refine .inl ⟨out', h, hap.succ hc', fun i hi => ?_⟩
        rcases i with _ | i
        · rw [Nat.add_zero, hap.frame dst (by omega), Memory.read_write_same]
          rfl
        · rw [show dst + (i + 1) = dst + 1 + i by omega, hb i (by simpa using hi)]
          rfl
      · have := capacityReached_eq_false.1 hc' c h3
        exact .inr ⟨a, h, by omega, by simp only [List.length_cons]; omega, c, h3, by omega⟩

/-- A room for `n` bytes leaves no address full. -/
theorem FullAt.not_of_room {capacity : Option Nat} {n dst a : Nat} (h : FullAt capacity n dst a)
    (hr : ∀ c, capacity = some c → dst + n ≤ c) : False := by
  obtain ⟨h1, h2, c, h3, h4⟩ := h
  have := hr c h3
  omega

end Sys2Proof.Machine
end

