-- ==== Sys2Proof/Laws/Operands.lean ====
section
/-! SUPPORT. The arithmetic of the operands: `clog2` and the masks as natural numbers. -/

namespace Sys2Proof.Machine

open Sys2Proof

/-- `clog2(d)` is the least `n` with `2^n >= d` (00_scope.md rule R10). -/
theorem clog2_le_iff (d n : Nat) : clog2 d ≤ n ↔ d ≤ 2 ^ n := by
  unfold clog2
  split
  · have := Nat.one_le_two_pow (n := n)
    omega
  · rename_i hd
    rw [Nat.succ_le_iff, Nat.log2_lt (by omega)]
    omega

theorem computeHelpData_zero : computeHelpData 0 = none := rfl

theorem computeHelpData_pos {d : Nat} (h : d ≠ 0) : computeHelpData d = some (helpDataAt (max 4 (clog2 d))) :=
  if_neg h

theorem computeHelpData_eq_none {d : Nat} : computeHelpData d = none ↔ d = 0 := by
  unfold computeHelpData
  split <;> simp_all

@[simp] theorem helpDataAt_bitCount (n : Nat) : (helpDataAt n).bitCount = n := rfl

theorem lengthMask_toNat (n : Nat) : (helpDataAt n).lengthMask.toNat = 0xFFFF >>> n := by
  simp [helpDataAt]

/-- The length of a token is at least 3 and at most `maximumLength`, whatever the split. -/
theorem unpackLength_bounds (t : Half) (hd : HelpData) :
    3 ≤ unpackLength t hd ∧ unpackLength t hd ≤ hd.lengthMask.toNat + 3 := by
  unfold unpackLength
  rw [BitVec.toNat_and]
  have := @Nat.and_le_right t.toNat hd.lengthMask.toNat
  omega

theorem one_le_unpackOffset (t : Half) (hd : HelpData) : 1 ≤ unpackOffset t hd := by
  unfold unpackOffset
  omega

theorem headerSize_bounds (h : Half) : 3 ≤ headerSize h ∧ headerSize h ≤ 4098 := by
  unfold headerSize
  rw [BitVec.toNat_and]
  have := @Nat.and_le_right h.toNat (0x0FFF#16).toNat
  simp at this ⊢
  omega

end Sys2Proof.Machine
end

