-- ==== Sys2Proof/Laws/Step.lean ====
section
/-! SUPPORT. What each shared operation of a step can do, said once: the elements, the fetch, the host's acts, the
step. -/

namespace Sys2Proof.Machine

open Sys2Proof

/-! ## The elements -/

/-- Everything COPY can do. -/
theorem copyToken_cases (token : Half) (s : State) :
    (s.ce < s.cc + 2 ∧ copyToken token s = .next (s.raise .outOfBounds ⟨.inputRead, s.ce⟩)) ∨
    (s.cc + 2 ≤ s.ce ∧
      ((s.difference = 0 ∧ copyToken token s = .next (s.raise .undefinedHelpData ⟨.none, s.cc⟩)) ∨
      ∃ hd, computeHelpData s.difference = some hd ∧
        ((15 < hd.bitCount ∧ copyToken token s = .refused .bitCountAbove15) ∨
        (hd.bitCount ≤ 15 ∧ s.dc < unpackOffset token hd ∧
          copyToken token s = .next (s.raise .outOfBounds ⟨.outputRead, unpackOffset token hd⟩)) ∨
        (hd.bitCount ≤ 15 ∧ unpackOffset token hd ≤ s.dc ∧
          ((∃ out, copyToken token s = .next (s.tookToken 2 (unpackLength token hd) out) ∧
              Appended s.params.outCapacity (unpackLength token hd) s.dc s.outMem out ∧
              ∀ i, i < unpackLength token hd →
                out.read (s.dc + i) = out.read (s.dc - unpackOffset token hd + i)) ∨
          (∃ a, copyToken token s = .next (s.raise .outOfBounds ⟨.outputWrite, a⟩) ∧
              FullAt s.params.outCapacity (unpackLength token hd) s.dc a) ∨
          (copyToken token s = .fault .outputNotWritten ∧ ¬ Filled s.outMem s.dc ∧
              ∃ a, s.dc - unpackOffset token hd ≤ a ∧ a < s.dc ∧ s.outMem.read a = none)))))) := by
  unfold copyToken
  by_cases hb : s.ce < s.cc + 2
  · exact .inl ⟨hb, by rw [if_pos hb]⟩
  refine .inr ⟨by omega, ?_⟩
  rw [if_neg hb]
  by_cases hz : s.difference = 0
  · exact .inl ⟨hz, by simp [hz, computeHelpData_zero]⟩
  refine .inr ⟨_, computeHelpData_pos hz, ?_⟩
  simp only [computeHelpData_pos hz]
  by_cases h15 : 15 < (helpDataAt (max 4 (clog2 s.difference))).bitCount
  · exact .inl ⟨h15, by rw [if_pos h15]⟩
  refine .inr ?_
  rw [if_neg h15]
  by_cases ho : s.dc < unpackOffset token (helpDataAt (max 4 (clog2 s.difference)))
  · exact .inl ⟨by omega, ho, by rw [if_pos ho]⟩
  refine .inr ⟨by omega, by omega, ?_⟩
  rw [if_neg ho]
  have h1 := one_le_unpackOffset token (helpDataAt (max 4 (clog2 s.difference)))
  have hlt : s.dc - unpackOffset token (helpDataAt (max 4 (clog2 s.difference))) < s.dc := by omega
  rcases copyLoop_cases s.params.outCapacity
      (unpackLength token (helpDataAt (max 4 (clog2 s.difference)))) _ s.dc s.outMem hlt with
    ⟨out, h, hap, hc⟩ | ⟨a, h, hf⟩ | ⟨h, hf⟩
  · exact .inl ⟨out, by rw [h], hap, hc⟩
  · exact .inr (.inl ⟨a, by rw [h], hf⟩)
  · exact .inr (.inr ⟨by rw [h], hf, copyLoop_missing hlt h⟩)

/-- Everything the payload of a raw chunk can do, in a state whose IN is canonical. -/
theorem rawPayload_cases (s : State) (hw : s.inMem.wf = true) :
    (s.cre < s.cc + 4096 ∧ rawPayload s = .next (s.raise .outOfBounds ⟨.inputRead, s.cre⟩)) ∨
    (s.cc + 4096 ≤ s.cre ∧
      ((rawPayload s = .fault .inputNotPlaced ∧ ∃ i, i < 4096 ∧ s.inMem.read (s.cc + i) = none) ∨
      (∃ out, rawPayload s = .next (s.tookPayload out) ∧
          Appended s.params.outCapacity 4096 s.dc s.outMem out ∧ s.placed s.cc 4096 ∧
          ∀ i, i < 4096 → out.read (s.dc + i) = s.inMem.read (s.cc + i)) ∨
      (∃ a, rawPayload s = .next (s.raise .outOfBounds ⟨.outputWrite, a⟩) ∧
          FullAt s.params.outCapacity 4096 s.dc a ∧ s.placed s.cc 4096))) := by
  unfold rawPayload
  by_cases hb : s.cre < s.cc + 4096
  · exact .inl ⟨hb, by rw [if_pos hb]⟩
  refine .inr ⟨by omega, ?_⟩
  rw [if_neg hb]
  rcases Memory.readBytes_cases hw s.cc 4096 with ⟨bs, hbs, hlen, hget⟩ | ⟨hn, i, hi, hr⟩
  · rw [hbs]
    have hpl : s.placed s.cc 4096 := fun i hi => by
      rw [← hget i hi, List.getElem?_eq_getElem (by omega)]
      rfl
    rcases appendLoop_cases s.params.outCapacity bs s.dc s.outMem with ⟨out, h, hap, hc⟩ | ⟨a, h, hf⟩
    · rw [hlen] at hap hc
      exact .inr (.inl ⟨out, by simp only [h], hap, hpl, fun i hi => by rw [hc i hi, hget i hi]⟩)
    · rw [hlen] at hf
      exact .inr (.inr ⟨a, by simp only [h], hf, hpl⟩)
  · exact .inl ⟨by rw [hn], i, hi, hr⟩

/-- Everything the start of a chunk can do. -/
theorem chunkStart_cases (h : Half) (rest : State → Host.Outcome State Fault Refusal) (s : State) :
    (s.cre < s.cc + 2 ∧ chunkStart h rest s = .next (s.raise .outOfBounds ⟨.inputRead, s.cre⟩)) ∨
    (s.cc + 2 ≤ s.cre ∧ chunkStart h rest s = rest (s.openChunk (headerSize h))) := by
  unfold chunkStart
  by_cases hb : s.cre < s.cc + 2
  · exact .inl ⟨hb, if_pos hb⟩
  · exact .inr ⟨by omega, if_neg hb⟩

/-- A raise after the chunk start leaves the same state as before it: everything the chunk start writes is free. -/
theorem openChunk_raise (s : State) (n : Nat) (r : FaultReason) (i : FaultInfo) :
    (s.openChunk n).raise r i = s.raise r i := rfl

/-- Every COPY row is COPY on the token its fields make (R144). -/
theorem exec_of_copyFields {i : Instr} {n o l : Nat} (h : copyFields i = some (n, o, l)) :
    ∃ token, encode i = littleEndianBytes token ∧ ∀ s, exec i s = copyToken token s := by
  cases i <;> simp [copyFields] at h <;> exact ⟨_, rfl, fun _ => rfl⟩

/-- The six kinds of element: what `exec` calls for each constructor. -/
theorem exec_kinds (i : Instr) :
    (∃ b, i = .sig b ∧ ∀ s, exec i s = execSig b s) ∨
    (∃ x sz, i = .hdrRaw x sz ∧ ∀ s, exec i s = chunkStart (headerWord 0#1 x sz) rawPayload s) ∨
    (∃ x sz, i = .hdrCmp x sz ∧
      ∀ s, exec i s = chunkStart (headerWord 1#1 x sz) (fun t => .next (t.enterPhase .group)) s) ∨
    (∃ f, i = .flag f ∧ ∀ s, exec i s = .next (s.takeFlag f)) ∨
    (∃ b, i = .lit b ∧ ∀ s, exec i s = execLit b s) ∨
    (∃ n o l token, copyFields i = some (n, o, l) ∧ encode i = littleEndianBytes token ∧
      ∀ s, exec i s = copyToken token s) := by
  cases i
  case sig b => exact .inl ⟨b, rfl, fun _ => rfl⟩
  case hdrRaw x sz => exact .inr (.inl ⟨x, sz, rfl, fun _ => rfl⟩)
  case hdrCmp x sz => exact .inr (.inr (.inl ⟨x, sz, rfl, fun _ => rfl⟩))
  case flag f => exact .inr (.inr (.inr (.inl ⟨f, rfl, fun _ => rfl⟩)))
  case lit b => exact .inr (.inr (.inr (.inr (.inl ⟨b, rfl, fun _ => rfl⟩))))
  all_goals exact .inr (.inr (.inr (.inr (.inr ⟨_, _, _, _, rfl, rfl, fun _ => rfl⟩))))

/-! ## The decoder -/

/-- The table has a row for a split exactly from 4 to 15 (R87). -/
theorem decodeToken_eq_none_iff (n : Nat) (t : Half) : decodeToken n t = none ↔ n < 4 ∨ 15 < n := by
  rcases Nat.lt_or_ge n 4 with h | h
  · interval_cases n <;> simp [decodeToken]
  rcases Nat.lt_or_ge 15 n with h' | h'
  · unfold decodeToken
    split <;> simp_all
  · interval_cases n <;> simp [decodeToken]

/-- The decoder answers an element of the context it was asked for. -/
theorem decode_context {c : Context} {bs rest : List Byte} {i : Instr} (h : decode c bs = .ok (i, rest)) :
    i.context = c := by
  unfold decode at h
  split at h <;> (try cases h) <;> (try rfl)
  · unfold decodeHeader
    split <;> rfl
  · rename_i n lo hi rest'
    split at h
    · rename_i j hj
      cases h
      unfold decodeToken at hj
      split at hj <;> cases hj <;> rfl
    · cases h

theorem decode_of_width {c : Context} {bs : List Byte} (h : bs.length = c.width) :
    (∃ i rest, decode c bs = .ok (i, rest)) ∨ ∃ n, c = .copy n ∧ (n < 4 ∨ 15 < n) ∧ decode c bs = .error (.noSuchSplit n) := by
  cases c with
  | copy n =>
    match bs, h with
    | [lo, hi], _ =>
      cases hd : decodeToken n (littleEndian lo hi) with
      | some i => exact .inl ⟨i, [], by simp [decode, hd]⟩
      | none => exact .inr ⟨n, rfl, (decodeToken_eq_none_iff _ _).1 hd, by simp [decode, hd]⟩
  | chunk => match bs, h with | [lo, hi], _ => exact .inl ⟨_, _, rfl⟩
  | signature => match bs, h with | [b], _ => exact .inl ⟨_, _, rfl⟩
  | group => match bs, h with | [b], _ => exact .inl ⟨_, _, rfl⟩
  | literal => match bs, h with | [b], _ => exact .inl ⟨_, _, rfl⟩

theorem context_copy {i : Instr} {n : Nat} (h : i.context = .copy n) :
    4 ≤ n ∧ n ≤ 15 ∧ ∃ o l, copyFields i = some (n, o, l) := by
  cases i <;> simp [Instr.context] at h <;> subst h <;> exact ⟨by omega, by omega, _, _, rfl⟩

/-! ## The fetch -/

/-- Everything a fetch of an element can do. -/
theorem fetchElement_cases (c : Context) (a limit : Nat) (s : State) :
    (limit < a + c.width ∧ fetchElement c a limit s = .raises .outOfBounds ⟨.inputRead, limit⟩) ∨
    (a + c.width ≤ limit ∧
      ((s.inMem.readBytes a c.width = none ∧ fetchElement c a limit s = .stops .inputNotPlaced) ∨
      (∃ bs i rest, s.inMem.readBytes a c.width = some bs ∧ decode c bs = .ok (i, rest) ∧
        fetchElement c a limit s = .element i) ∨
      (∃ n, c = .copy n ∧ (n < 4 ∨ 15 < n) ∧ fetchElement c a limit s = .refuses .bitCountAbove15))) := by
  unfold fetchElement
  by_cases hb : limit < a + c.width
  · exact .inl ⟨hb, if_pos hb⟩
  refine .inr ⟨by omega, ?_⟩
  rw [if_neg hb]
  cases hr : s.inMem.readBytes a c.width with
  | none => exact .inl ⟨rfl, rfl⟩
  | some bs =>
    rcases decode_of_width (Memory.readBytes_spec hr).1 with ⟨i, rest, h⟩ | ⟨n, hc, hn, h⟩
    · exact .inr (.inl ⟨bs, i, rest, rfl, h, by simp only [h]⟩)
    · exact .inr (.inr ⟨n, hc, hn, by simp only [h]⟩)

/-- The phase and the conditions under which the sequencer takes an element (R80, R184). -/
theorem choose_take {s : State} {c : Context} {a limit : Nat} (h : choose s = .take c a limit) :
    (s.phase = .sig ∧ c = .signature ∧ a = 0 ∧ limit = s.cre) ∨
    (s.phase = .chunk ∧ s.cc < s.cre ∧ c = .chunk ∧ a = s.cc ∧ limit = s.cre) ∨
    (s.phase = .group ∧ s.cc < s.ce ∧ c = .group ∧ a = s.cc ∧ limit = s.ce) ∨
    (s.phase = .token ∧ s.bi < 8 ∧ s.cc < s.ce ∧ flagBit s.fb s.bi = false ∧ c = .literal ∧ a = s.cc ∧
      limit = s.ce) ∨
    (s.phase = .token ∧ s.bi < 8 ∧ s.cc < s.ce ∧ flagBit s.fb s.bi = true ∧ a = s.cc ∧ limit = s.ce ∧
      s.difference ≠ 0 ∧ c = .copy (max 4 (clog2 s.difference))) := by
  unfold choose at h
  split at h <;> (try split at h) <;> (try split at h) <;> (try split at h) <;> cases h
  · rename_i hp; exact .inl ⟨hp, rfl, rfl, rfl⟩
  · rename_i hp hc; exact .inr (.inl ⟨hp, by omega, rfl, rfl, rfl⟩)
  · rename_i hp hc; exact .inr (.inr (.inl ⟨hp, by omega, rfl, rfl, rfl⟩))
  · rename_i hp hc hf _ hd hhd
    have hz : s.difference ≠ 0 := fun h0 => by simp [h0, computeHelpData_zero] at hhd
    rw [computeHelpData_pos hz] at hhd
    cases hhd
    exact .inr (.inr (.inr (.inr ⟨hp, by omega, by omega, hf, rfl, rfl, hz, rfl⟩)))
  · rename_i hp hc hf
    exact .inr (.inr (.inr (.inl ⟨hp, by omega, by omega, by simpa using hf, rfl, rfl, rfl⟩)))

/-- The phase moves of the sequencer that take no element (R146, R164, R183). -/
theorem choose_moveTo {s : State} {p : Phase} (h : choose s = .moveTo p) :
    (s.phase = .chunk ∧ s.cre ≤ s.cc ∧ p = .done) ∨
    (s.phase = .group ∧ s.ce ≤ s.cc ∧ p = .chunk) ∨
    (s.phase = .token ∧ (8 ≤ s.bi ∨ s.ce ≤ s.cc) ∧ p = .group) := by
  unfold choose at h
  split at h <;> (try split at h) <;> (try split at h) <;> (try split at h) <;> cases h
  · rename_i hp hc; exact .inl ⟨hp, hc, rfl⟩
  · rename_i hp hc; exact .inr (.inl ⟨hp, hc, rfl⟩)
  · rename_i hp hc; exact .inr (.inr ⟨hp, hc, rfl⟩)

theorem choose_rest {s : State} (h : choose s = .rest) : s.atRest = true := by
  unfold choose at h
  unfold State.atRest
  split at h <;> (try split at h) <;> (try split at h) <;> (try split at h) <;> (try cases h) <;> simp_all

theorem choose_takeUndefined {s : State} (h : choose s = .takeUndefined) :
    s.phase = .token ∧ s.bi < 8 ∧ s.cc < s.ce ∧ flagBit s.fb s.bi = true ∧ s.difference = 0 := by
  unfold choose at h
  split at h <;> (try split at h) <;> (try split at h) <;> (try split at h) <;> (try cases h)
  rename_i hp hc hf _ hhd
  exact ⟨hp, by omega, by omega, hf, computeHelpData_eq_none.1 hhd⟩

/-! ## The step -/

/-- Everything the hardware's own step can do. -/
theorem advance_cases (s : State) :
    (s.atRest = true ∧ advance s = .next s) ∨
    (∃ p, choose s = .moveTo p ∧ advance s = .next (s.enterPhase p)) ∨
    (∃ c a limit, choose s = .take c a limit ∧
      ((limit < a + c.width ∧ advance s = .next (s.raise .outOfBounds ⟨.inputRead, limit⟩)) ∨
      (a + c.width ≤ limit ∧
        ((s.inMem.readBytes a c.width = none ∧ advance s = .fault .inputNotPlaced) ∨
        (∃ bs i rest, s.inMem.readBytes a c.width = some bs ∧ decode c bs = .ok (i, rest) ∧
          advance s = exec i s) ∨
        (∃ n, c = .copy n ∧ (n < 4 ∨ 15 < n) ∧ advance s = .refused .bitCountAbove15))))) ∨
    (choose s = .takeUndefined ∧
      ((s.ce < s.cc + 2 ∧ advance s = .next (s.raise .outOfBounds ⟨.inputRead, s.ce⟩)) ∨
      (s.cc + 2 ≤ s.ce ∧ advance s = .next (s.raise .undefinedHelpData ⟨.none, s.cc⟩)))) := by
  unfold advance fetch
  cases hc : choose s with
  | rest => exact .inl ⟨choose_rest hc, rfl⟩
  | moveTo p => exact .inr (.inl ⟨p, rfl, rfl⟩)
  | take c a limit =>
    refine .inr (.inr (.inl ⟨c, a, limit, rfl, ?_⟩))
    simp only
    rcases fetchElement_cases c a limit s with ⟨h1, h⟩ | ⟨h1, ⟨h2, h⟩ | ⟨bs, i, rest, h2, h3, h⟩ | ⟨n, h2, h3, h⟩⟩
    · exact .inl ⟨h1, by rw [h]⟩
    · exact .inr ⟨h1, .inl ⟨h2, by rw [h]⟩⟩
    · exact .inr ⟨h1, .inr (.inl ⟨bs, i, rest, h2, h3, by rw [h]⟩)⟩
    · exact .inr ⟨h1, .inr (.inr ⟨n, h2, h3, by rw [h]⟩)⟩
  | takeUndefined =>
    refine .inr (.inr (.inr ⟨rfl, ?_⟩))
    simp only
    by_cases hb : s.ce < s.cc + 2
    · exact .inl ⟨hb, by rw [if_pos hb]⟩
    · exact .inr ⟨by omega, by rw [if_neg hb]⟩

/-- Everything an act of the host can do (R33, R63, R230, R232). -/
theorem hostEffect_cases (a : HostAct) (s : State) :
    (hostEffect a s = .none ∧
      (a = .pass ∨ (∃ n, a = .writeInLen n ∧ s.atRest = false) ∨ ∃ v, a = .writeStart v ∧ ¬ (v = 1 ∧ s.atRest = true))) ∨
    (∃ x b, a = .writeIn x b ∧ s.atRest = true ∧ hostEffect a s = .taken { s with inMem := s.inMem.write x b }) ∨
    (∃ x b, a = .writeIn x b ∧ s.atRest = false ∧ hostEffect a s = .refuses .hostTouchedInput) ∨
    (∃ n, a = .writeInLen n ∧ s.atRest = true ∧ hostEffect a s = .taken { s with inLen := n }) ∨
    (a = .writeStart 1 ∧ s.atRest = true ∧ s.inLenTooLarge = false ∧ hostEffect a s = .taken s.startRun) ∨
    (a = .writeStart 1 ∧ s.atRest = true ∧ s.inLenTooLarge = true ∧ hostEffect a s = .refuses .inLenTooLarge) ∨
    (a = .hardReset ∧ hostEffect a s = .taken s.hardReset) := by
  cases a with
  | pass => exact .inl ⟨rfl, .inl rfl⟩
  | writeIn x b => cases h : s.atRest <;> simp [hostEffect, h]
  | writeInLen n => cases h : s.atRest <;> simp [hostEffect, h]
  | writeStart v =>
    by_cases hv : v = 1 ∧ s.atRest = true
    · obtain ⟨rfl, hr⟩ := hv
      cases h : s.inLenTooLarge <;> simp [hostEffect, h, hr]
    · exact .inl ⟨if_neg hv, .inr (.inr ⟨v, rfl, hv⟩)⟩
  | hardReset => simp [hostEffect]

/-- Everything one step can do: the hardware's own step, after an act of the host with no effect if one is pending; or
an act of the host. -/
theorem step_cases (s : State) :
    (s.host = [] ∧ step s = advance s) ∨
    (∃ a rest, s.host = a :: rest ∧
      ((hostEffect a { s with host := rest } = .none ∧ step s = advance { s with host := rest }) ∨
      (∃ t, hostEffect a { s with host := rest } = .taken t ∧ step s = .next t) ∨
      (∃ r, hostEffect a { s with host := rest } = .refuses r ∧ step s = .refused r))) := by
  unfold step
  cases hh : s.host with
  | nil => exact .inl ⟨rfl, rfl⟩
  | cons a rest =>
    refine .inr ⟨a, rest, rfl, ?_⟩
    cases he : hostEffect a { s with host := rest } with
    | none => exact .inl ⟨rfl, by simp only [he]⟩
    | taken t => exact .inr (.inl ⟨t, rfl, by simp only [he]⟩)
    | refuses r => exact .inr (.inr ⟨r, rfl, by simp only [he]⟩)

end Sys2Proof.Machine
end

