-- ==== Sys2Proof/Laws/PerInstr.lean ====
section
/-! SUPPORT. A fact about every element as a piece of the stream, one lemma per constructor. -/

namespace Sys2Proof.Laws.EncodeWidth

open Sys2Proof

/-- The encoding of an element has the length the decoder knows before it reads it (30_encoding.md rule R81). -/
def Statement (i : Instr) : Prop := (encode i).length = i.context.width

theorem sig (b : Byte) : Statement (.sig b) := rfl
theorem hdrRaw (x : BitVec 3) (sz : BitVec 12) : Statement (.hdrRaw x sz) := rfl
theorem hdrCmp (x : BitVec 3) (sz : BitVec 12) : Statement (.hdrCmp x sz) := rfl
theorem flag (f : Byte) : Statement (.flag f) := rfl
theorem lit (b : Byte) : Statement (.lit b) := rfl
theorem copyB4 (o : BitVec 4) (l : BitVec 12) : Statement (.copyB4 o l) := rfl
theorem copyB5 (o : BitVec 5) (l : BitVec 11) : Statement (.copyB5 o l) := rfl
theorem copyB6 (o : BitVec 6) (l : BitVec 10) : Statement (.copyB6 o l) := rfl
theorem copyB7 (o : BitVec 7) (l : BitVec 9) : Statement (.copyB7 o l) := rfl
theorem copyB8 (o : BitVec 8) (l : BitVec 8) : Statement (.copyB8 o l) := rfl
theorem copyB9 (o : BitVec 9) (l : BitVec 7) : Statement (.copyB9 o l) := rfl
theorem copyB10 (o : BitVec 10) (l : BitVec 6) : Statement (.copyB10 o l) := rfl
theorem copyB11 (o : BitVec 11) (l : BitVec 5) : Statement (.copyB11 o l) := rfl
theorem copyB12 (o : BitVec 12) (l : BitVec 4) : Statement (.copyB12 o l) := rfl
theorem copyB13 (o : BitVec 13) (l : BitVec 3) : Statement (.copyB13 o l) := rfl
theorem copyB14 (o : BitVec 14) (l : BitVec 2) : Statement (.copyB14 o l) := rfl
theorem copyB15 (o : BitVec 15) (l : BitVec 1) : Statement (.copyB15 o l) := rfl

end Sys2Proof.Laws.EncodeWidth
end

