-- ==== Sys2Proof/Tests/Slice0.lean ====
section
/-! SUPPORT. Tests of the model on the spec's own vectors (95_test_vectors.md) and on words written out from the
encodings, and a witness for the hypotheses of every statement. -/

namespace Sys2Proof.Tests

open Sys2Proof Sys2Proof.Machine

/-! ## WellFormed (30_encoding.md rule R89) -/

theorem test_illegal_signature_is_ill_formed : (Instr.sig 0x00#8).wellFormed = false := by decide
theorem test_illegal_signature_high_is_ill_formed : (Instr.sig 0x02#8).wellFormed = false := by decide
theorem test_legal_signature_is_well_formed : (Instr.sig 0x01#8).wellFormed = true := by decide
theorem test_ignored_header_bits_are_well_formed : (Instr.hdrCmp 0b111#3 0#12).wellFormed = true := by decide

/-! ## Decoding: one word per constructor, its bits from the formats of R82 to R87 -/

theorem test_decode_sig : decode .signature [0b00000001#8] = .ok (.sig 1#8, []) := rfl
/-- T-H9: `01 02` is 0x0201. -/
theorem test_decode_hdrRaw : decode .chunk [0b00000001#8, 0b00000010#8] = .ok (.hdrRaw 0#3 0x201#12, []) := rfl
/-- T-H5: `2F B0` is 0xB02F. -/
theorem test_decode_hdrCmp : decode .chunk [0b00101111#8, 0b10110000#8] = .ok (.hdrCmp 3#3 0x02F#12, []) := rfl
theorem test_decode_flag : decode .group [0b10000010#8] = .ok (.flag 0x82#8, []) := rfl
theorem test_decode_lit : decode .literal [0b01100110#8] = .ok (.lit 0x66#8, []) := rfl
theorem test_decode_copyB4 :
    decode (.copy 4) [0b00000010#8, 0b00010000#8] = .ok (.copyB4 0b0001#4 0b000000000010#12, []) := rfl
theorem test_decode_copyB5 :
    decode (.copy 5) [0b00000001#8, 0b00111000#8] = .ok (.copyB5 0b00111#5 0b00000000001#11, []) := rfl
theorem test_decode_copyB6 :
    decode (.copy 6) [0b00000100#8, 0b00010000#8] = .ok (.copyB6 0b000100#6 0b0000000100#10, []) := rfl
theorem test_decode_copyB7 :
    decode (.copy 7) [0b00000011#8, 0b10000010#8] = .ok (.copyB7 0b1000001#7 0b000000011#9, []) := rfl
theorem test_decode_copyB8 :
    decode (.copy 8) [0b00000101#8, 0b10000001#8] = .ok (.copyB8 0b10000001#8 0b00000101#8, []) := rfl
theorem test_decode_copyB9 :
    decode (.copy 9) [0b10000001#8, 0b10000000#8] = .ok (.copyB9 0b100000001#9 0b0000001#7, []) := rfl
theorem test_decode_copyB10 :
    decode (.copy 10) [0b01000001#8, 0b10000000#8] = .ok (.copyB10 0b1000000001#10 0b000001#6, []) := rfl
theorem test_decode_copyB11 :
    decode (.copy 11) [0b00100001#8, 0b10000000#8] = .ok (.copyB11 0b10000000001#11 0b00001#5, []) := rfl
theorem test_decode_copyB12 :
    decode (.copy 12) [0b00010001#8, 0b10000000#8] = .ok (.copyB12 0b100000000001#12 0b0001#4, []) := rfl
theorem test_decode_copyB13 :
    decode (.copy 13) [0b00001000#8, 0b00000000#8] = .ok (.copyB13 0b0000000000001#13 0b000#3, []) := rfl
theorem test_decode_copyB14 :
    decode (.copy 14) [0b00000110#8, 0b00000000#8] = .ok (.copyB14 0b00000000000001#14 0b10#2, []) := rfl
theorem test_decode_copyB15 :
    decode (.copy 15) [0b00000011#8, 0b00000000#8] = .ok (.copyB15 0b000000000000001#15 0b1#1, []) := rfl
/-- R124: the table has no row at bitCount 16. -/
theorem test_decode_no_split_16 : decode (.copy 16) [0#8, 0#8] = .error (.noSuchSplit 16) := rfl
theorem test_decode_truncated : decode .chunk [0#8] = .error .truncated := rfl

theorem test_table_word_sig : decodeTableWord 8 0x01 = some (.sig 1#8) := by decide
theorem test_table_word_raw : decodeTableWord 16 0x3FFF = some (.hdrRaw 3#3 0xFFF#12) := by decide
theorem test_table_word_cmp : decodeTableWord 16 0xB02F = some (.hdrCmp 3#3 0x02F#12) := by decide

/-! ## The pure functions (section 2 of the vectors) -/

/-- T-H2, T-H5, T-H8, T-H12. -/
theorem test_header_vectors :
    [0x0FFF#16, 0xB02F#16, 0xB001#16, 0x7000#16].map (fun h => (headerSize h, headerIsCompressed h)) =
      [(4098, 0), (50, 1), (4, 1), (3, 0)] := by decide

/-- T-C1, T-C2, T-C5, T-C7, T-C10, T-C11, T-C14. -/
theorem test_bitCount_vectors :
    [1, 16, 17, 33, 4096, 4097, 16385].map (fun d => (computeHelpData d).map HelpData.bitCount) =
      [some 4, some 4, some 5, some 6, some 12, some 13, some 15] := by decide

/-- T-C16. -/
theorem test_no_help_data_at_zero : computeHelpData 0 = none := rfl

/-- T-C7: the masks at difference 33. -/
theorem test_masks_at_33 :
    (computeHelpData 33).map (fun hd => (hd.lengthMask, hd.offsetMask, hd.maximumLength)) =
      some (0x03FF#16, 0xFC00#16, 1026) := by decide

/-- T-U3, T-U4, T-U5, T-U12, T-U18: the same token at another position, and the extremes. -/
theorem test_unpack_vectors :
    [(0x7000#16, 9), (0x3801#16, 17), (0x3801#16, 16), (0xFFFF#16, 4097), (0xFFFF#16, 16385)].map
      (fun p => (computeHelpData p.2).map fun hd => (unpackOffset p.1 hd, unpackLength p.1 hd)) =
      [some (8, 3), some (8, 4), some (4, 2052), some (8192, 10), some (32768, 4)] := by decide

/-! ## Small states: the run of T-E4 (`01 03 80 02 41 00 00`) before each of its steps -/

/-- The stream of T-E4. -/
def stream : List Byte := [0x01, 0x03, 0x80, 0x02, 0x41, 0x00, 0x00]

/-- Right after START. -/
def atSig : State := { State.reset with inMem := cellsFrom 0 stream, inLen := 7, cre := 7, phase := .sig }
def atChunk : State := { atSig with cc := 1, phase := .chunk }
def atGroup : State := { atSig with cc := 3, ccs := 1, ce := 7, phase := .group }
def atLit : State := { atGroup with cc := 4, fb := 0x02#8, phase := .token }
def atCopy : State := { atLit with cc := 5, bi := 1, dc := 1, outMem := cellsFrom 0 [0x41] }
def atGroupEnd : State :=
  { atCopy with cc := 7, bi := 2, dc := 4, outMem := cellsFrom 0 [0x41, 0x41, 0x41, 0x41] }
def atChunkEnd : State := { atGroupEnd with phase := .group }
def atRunEnd : State := { atGroupEnd with phase := .chunk }
def atDone : State := { atGroupEnd with phase := .done }
/-- The same machine with room for `c` bytes of output. -/
def withCapacity (s : State) (c : Nat) : State := { s with params := Params.mk none (some c) none }

/-- The next state of an outcome. -/
def nextOf : Host.Outcome State Fault Refusal → Option State
  | .next t => some t
  | _ => none

/-- What the host reads of a fault. -/
def faultOf (o : Host.Outcome State Fault Refusal) : Option (BitVec 2 × FaultReason × FaultInfo) :=
  (nextOf o).map fun t => (t.status, t.faultReason, t.faultInfo)

/-! ### Single steps (T-S rows) -/

/-- T-S1. -/
theorem test_step_sig : nextOf (step atSig) = some atChunk := by decide
/-- T-E17a: the first byte is 0x00. -/
theorem test_step_bad_sig :
    faultOf (step { atSig with inMem := cellsFrom 0 [0x00] }) = some (3, .malformedSignature, ⟨.none, 0⟩) := by decide
/-- T-E16: the empty input. -/
theorem test_step_empty_input :
    faultOf (step { atSig with cre := 0 }) = some (3, .outOfBounds, ⟨.inputRead, 0⟩) := by decide
/-- T-E4: header 0x8003, size 6. -/
theorem test_step_hdrCmp : nextOf (step atChunk) = some atGroup := by decide
/-- T-S3: a header in the middle of a stream. -/
theorem test_exec_hdrCmp_second_chunk :
    (nextOf (exec (.hdrCmp 0#3 3#12) { atChunk with cc := 6, cre := 12, dc := 2 })).map
      (fun t => (t.ccs, t.dcs, t.ce, t.cc, t.phase)) = some (6, 2, 12, 8, .group) := by decide
/-- T-E5: 0x0201 is a raw header and 4096 bytes are not there. -/
theorem test_step_hdrRaw_short :
    faultOf (step { atChunk with cre := 6, inMem := cellsFrom 0 [0x01, 0x01, 0x02, 0x01, 0x00, 0x00] }) =
      some (3, .outOfBounds, ⟨.inputRead, 6⟩) := by decide
/-- T-E15a: one byte where a header should be. -/
theorem test_step_header_cut_off :
    faultOf (step { atChunk with cre := 2 }) = some (3, .outOfBounds, ⟨.inputRead, 2⟩) := by decide
/-- T-E4: the flag byte 0x02. -/
theorem test_step_flag : nextOf (step atGroup) = some atLit := by decide
/-- T-E4: the literal 0x41. -/
theorem test_step_lit : nextOf (step atLit) = some atCopy := by decide
/-- T-E24c: the first literal does not fit. -/
theorem test_step_lit_full :
    faultOf (step (withCapacity atLit 0)) = some (3, .outOfBounds, ⟨.outputWrite, 0⟩) := by decide
/-- T-E4: offset 1, length 3. -/
theorem test_step_copy : nextOf (step atCopy) = some atGroupEnd := by decide
/-- T-E24a: the third byte does not fit. -/
theorem test_step_copy_full :
    faultOf (step (withCapacity atCopy 3)) = some (3, .outOfBounds, ⟨.outputWrite, 3⟩) := by decide
/-- T-S8: offset 2, length 5 after "ab" appends "ababa". -/
theorem test_exec_copyB4_overlap :
    (nextOf (exec (.copyB4 1#4 2#12) { atCopy with dc := 2, outMem := cellsFrom 0 [0x61, 0x62] })).map
      (fun t => (t.outMem, t.dc)) =
      some (cellsFrom 0 [0x61, 0x62, 0x61, 0x62, 0x61, 0x62, 0x61], 7) := by decide
/-- T-S7, with "#aaabcdef" in OUT: offset 8, length 3 appends "aaa". -/
theorem test_exec_copyB4 :
    (nextOf (exec (.copyB4 7#4 0#12)
      { atCopy with dc := 9, outMem := cellsFrom 0 [0x23, 0x61, 0x61, 0x61, 0x62, 0x63, 0x64, 0x65, 0x66] })).map
      (fun t => (t.outMem.drop 9, t.dc)) = some (cellsFrom 9 [0x61, 0x61, 0x61], 12) := by decide
/-- P2's second copy at difference 17 (offset 8, length 4) with OUT 0x00 to 0x10: it appends OUT[9] to OUT[12]. -/
theorem test_exec_copyB5 :
    (nextOf (exec (.copyB5 7#5 1#11) { atCopy with
      dc := 17, outMem := cellsFrom 0 ((List.range 17).map (BitVec.ofNat 8)) })).map
      (fun t => (t.outMem.drop 17, t.dc)) = some (cellsFrom 17 [0x09, 0x0A, 0x0B, 0x0C], 21) := by decide
/-- T-S9, T-S10, T-S11, T-S12: the moves of the sequencer. -/
theorem test_step_slots_used_up :
    nextOf (step { atCopy with bi := 8 }) = some { atCopy with bi := 8, phase := .group } := by decide
theorem test_step_group_ends : nextOf (step atGroupEnd) = some atChunkEnd := by decide
theorem test_step_chunk_ends : nextOf (step atChunkEnd) = some atRunEnd := by decide
theorem test_step_run_ends :
    (nextOf (step atRunEnd)).map (fun t => (t.phase, t.status, t.outLen)) = some (.done, 2, 4) := by decide
/-- T-S13. -/
theorem test_step_copy_cut_off :
    faultOf (step { atCopy with ce := 6 }) = some (3, .outOfBounds, ⟨.inputRead, 6⟩) := by decide
/-- T-S14. -/
theorem test_step_copy_first :
    faultOf (step { atCopy with dcs := 1 }) = some (3, .undefinedHelpData, ⟨.none, 5⟩) := by decide
/-- T-S15: token 0x1000 at difference 1. -/
theorem test_exec_copy_before_output :
    faultOf (exec (.copyB4 1#4 0#12) atCopy) = some (3, .outOfBounds, ⟨.outputRead, 2⟩) := by decide
/-- T-E25: the input bound is tested before the split. -/
theorem test_fault_priority :
    faultOf (step { atCopy with ce := 6, dcs := 1 }) = some (3, .outOfBounds, ⟨.inputRead, 6⟩) := by decide
/-- R230. -/
theorem test_step_start :
    (nextOf (step { atDone with host := [.writeStart 1] })).map
      (fun t => (t.phase, t.cre, t.dc, t.outMem.length, t.faultReason)) = some (.sig, 7, 0, 0, .none) := by decide
/-- R33: the command is the value 1. -/
theorem test_step_start_zero :
    nextOf (step { atDone with host := [.writeStart 0] }) = some atDone := by decide
/-- A byte the host never placed stops the model (log 2). -/
theorem test_step_not_placed : nextOf (step { atSig with inMem := [] }) = none := by decide
/-- The host's entry: a header placed by `withFetchWord` runs as the first element. -/
theorem test_fetch_word_cmp :
    (nextOf (step (State.reset.withFetchWord 16 0xB02F))).map (fun t => (t.cc, t.phase)) = some (2, .group) := by decide
theorem test_fetch_word_sig :
    (nextOf (step (State.reset.withFetchWord 8 1))).map (fun t => (t.cc, t.phase)) = some (1, .chunk) := by decide

/-! ## Witnesses: the hypotheses of every statement are met together

Each names its statement and, where the statement has several clauses, the clause; the values are at a boundary. -/

theorem inv_atSig : Inv atSig where
  inCanonical := by decide
  outCanonical := by decide
  bitIndex := by decide
  reason := by decide
  phase := show InRun atSig ∧ atSig.dc = 0 from ⟨⟨rfl, rfl, rfl, fun c hc => by cases hc⟩, rfl⟩

theorem inv_atChunk : Inv atChunk where
  inCanonical := by decide
  outCanonical := by decide
  bitIndex := by decide
  reason := by decide
  phase := show InRun atChunk ∧ atChunk.expansionBounded ∧ 1 ≤ atChunk.cc ∧ atChunk.cc ≤ atChunk.cre from
    ⟨⟨rfl, rfl, rfl, fun c hc => by cases hc⟩, by unfold State.expansionBounded; decide, by decide, by decide⟩

theorem inv_atCopy : Inv atCopy where
  inCanonical := by decide
  outCanonical := by decide
  bitIndex := by decide
  reason := by decide
  phase := show InRun atCopy ∧ atCopy.expansionBounded ∧ InChunk atCopy from
    ⟨⟨rfl, rfl, rfl, fun c hc => by cases hc⟩, by unfold State.expansionBounded; decide,
      ⟨by decide, by decide, by decide, by decide, by decide, by decide, by decide⟩⟩

theorem inv_atGroupEnd : Inv atGroupEnd where
  inCanonical := by decide
  outCanonical := by decide
  bitIndex := by decide
  reason := by decide
  phase := show InRun atGroupEnd ∧ atGroupEnd.expansionBounded ∧ InChunk atGroupEnd from
    ⟨⟨rfl, rfl, rfl, fun c hc => by cases hc⟩, by unfold State.expansionBounded; decide,
      ⟨by decide, by decide, by decide, by decide, by decide, by decide, by decide⟩⟩

theorem inv_atChunkEnd : Inv atChunkEnd where
  inCanonical := by decide
  outCanonical := by decide
  bitIndex := by decide
  reason := by decide
  phase := show InRun atChunkEnd ∧ atChunkEnd.expansionBounded ∧ InChunk atChunkEnd from
    ⟨⟨rfl, rfl, rfl, fun c hc => by cases hc⟩, by unfold State.expansionBounded; decide,
      ⟨by decide, by decide, by decide, by decide, by decide, by decide, by decide⟩⟩

theorem inv_atRunEnd : Inv atRunEnd where
  inCanonical := by decide
  outCanonical := by decide
  bitIndex := by decide
  reason := by decide
  phase := show InRun atRunEnd ∧ atRunEnd.expansionBounded ∧ 1 ≤ atRunEnd.cc ∧ atRunEnd.cc ≤ atRunEnd.cre from
    ⟨⟨rfl, rfl, rfl, fun c hc => by cases hc⟩, by unfold State.expansionBounded; decide, by decide, by decide⟩

/-- Every address of the stream holds a byte. -/
theorem placed_atSig : atSig.placed 0 atSig.cre := fun i hi => by
  have h : ∀ j : Fin 7, (atSig.inMem.read (0 + j.val)).isSome := by decide
  exact h ⟨i, hi⟩

/-! ### Encoding and codec -/

theorem witness_DecodedBytesAreTheEncoding :
    decode (.copy 6) [0x04#8, 0x10#8, 0x72#8] = .ok (.copyB6 4#6 4#10, [0x72#8]) := rfl
theorem witness_BitCountIsLeastCoveringSplit : 1 ≤ 1 ∧ 4 ≤ 5 ∧ 17 ≤ 2 ^ 5 := by decide
theorem witness_MasksSplitTheToken_least : 4 ≤ 4 ∧ InSplit 4 1 := by unfold InSplit; decide
theorem witness_MasksSplitTheToken_power : 4 ≤ 4 ∧ InSplit 4 16 := by unfold InSplit; decide
theorem witness_MasksSplitTheToken_greatest : 4 ≤ 15 ∧ InSplit 15 32768 := by unfold InSplit; decide
theorem witness_UnpackIsABijection :
    4 ≤ 4 ∧ 4 ≤ 15 ∧ 1 ≤ 16 ∧ 16 ≤ 2 ^ 4 ∧ 3 ≤ 4098 ∧ 4098 ≤ (helpDataAt 4).maximumLength := by decide
theorem witness_BitCountNeverDecreases :
    16 ≤ 17 ∧ computeHelpData 16 = some (helpDataAt 4) ∧ computeHelpData 17 = some (helpDataAt 5) := by decide

/-! ### Elements -/

theorem witness_SignatureElement_opens : atSig.cre ≠ 0 := by decide
theorem witness_SignatureElement_malformed : ({ atSig with cre := 1 } : State).cre ≠ 0 ∧ (0x00#8) ≠ 0x01#8 := by decide
theorem witness_SignatureElement_empty : ({ atSig with cre := 0 } : State).cre = 0 := by decide
theorem witness_CompressedHeaderElement_opens : ({ atChunk with cre := 3 } : State).cc + 2 ≤ 3 := by decide
theorem witness_CompressedHeaderElement_cut_off : 2 < ({ atChunk with cre := 2 } : State).cc + 2 := by decide

/-- The stream of T-E19 with a payload of zeros: a raw header whose size field says 3, and 4096 bytes. -/
def atRaw : State :=
  { atChunk with inMem := cellsFrom 0 ([0x01#8, 0x00#8, 0x00#8] ++ List.replicate 4096 0#8), inLen := 4099, cre := 4099 }

theorem atRaw_wf : atRaw.inMem.wf = true := wf_cellsFrom _ _

theorem atRaw_placed : atRaw.placed (atRaw.cc + 2) 4096 := fun i hi => by
  show ((cellsFrom 0 ([0x01#8, 0x00#8, 0x00#8] ++ List.replicate 4096 0#8)).read (3 + i)).isSome
  have hlen : 3 + i - 0 < ([0x01#8, 0x00#8, 0x00#8] ++ List.replicate 4096 0#8).length := by
    rw [List.length_append, List.length_replicate]
    exact Nat.add_lt_add_left hi 3
  rw [read_cellsFrom, if_pos (Nat.zero_le _), List.getElem?_eq_getElem hlen]
  rfl

theorem witness_RawHeaderElement_completes :
    atRaw.inMem.wf = true ∧ atRaw.cc + 4098 ≤ atRaw.cre ∧ atRaw.placed (atRaw.cc + 2) 4096 ∧ atRaw.hasRoom 4096 :=
  ⟨atRaw_wf, le_refl _, atRaw_placed, fun c hc => by cases hc⟩
/-- Exactly enough room. -/
theorem witness_RawHeaderElement_fits :
    (withCapacity atRaw 4096).inMem.wf = true ∧ (withCapacity atRaw 4096).cc + 4098 ≤ (withCapacity atRaw 4096).cre ∧
    (withCapacity atRaw 4096).placed ((withCapacity atRaw 4096).cc + 2) 4096 ∧ (withCapacity atRaw 4096).hasRoom 4096 :=
  ⟨atRaw_wf, le_refl _, atRaw_placed, fun c hc => by cases hc; exact le_refl _⟩
theorem witness_RawHeaderElement_short :
    ({ atRaw with cre := 4098 } : State).inMem.wf = true ∧
    ({ atRaw with cre := 4098 } : State).cre < ({ atRaw with cre := 4098 } : State).cc + 4098 :=
  ⟨atRaw_wf, by decide⟩
theorem witness_RawHeaderElement_full :
    (withCapacity atRaw 4095).inMem.wf = true ∧ (withCapacity atRaw 4095).cc + 4098 ≤ (withCapacity atRaw 4095).cre ∧
    (withCapacity atRaw 4095).placed ((withCapacity atRaw 4095).cc + 2) 4096 ∧
    (withCapacity atRaw 4095).params.outCapacity = some 4095 ∧ 4095 < (withCapacity atRaw 4095).dc + 4096 :=
  ⟨atRaw_wf, le_refl _, atRaw_placed, rfl, by decide⟩
theorem witness_LiteralElement_room : (withCapacity atLit 1).hasRoom 1 := fun c hc => by cases hc; exact le_refl _
theorem witness_LiteralElement_full : ¬ (withCapacity atLit 0).hasRoom 1 := fun h => by
  have := h 0 rfl
  exact absurd this (by decide)

theorem atCopy_present : ∀ a, atCopy.dc - (0 + 1) ≤ a → a < atCopy.dc → (atCopy.outMem.read a).isSome := fun a h1 h2 => by
  obtain rfl : a = 0 := by
    have : a < 1 := h2
    omega
  rfl

theorem witness_CopyElement_completes :
    copyFields (.copyB4 0#4 0#12) = some (4, 0, 0) ∧ atCopy.cc + 2 ≤ atCopy.ce ∧
    InSplit 4 (atCopy.dc - atCopy.dcs) ∧ 0 + 1 ≤ atCopy.dc ∧
    (∀ a, atCopy.dc - (0 + 1) ≤ a → a < atCopy.dc → (atCopy.outMem.read a).isSome) ∧ atCopy.hasRoom (0 + 3) :=
  ⟨rfl, by decide, by unfold InSplit; decide, by decide, atCopy_present, fun c hc => by cases hc⟩
/-- T-E24b's room. -/
theorem witness_CopyElement_fits :
    copyFields (.copyB4 0#4 0#12) = some (4, 0, 0) ∧ (withCapacity atCopy 4).cc + 2 ≤ (withCapacity atCopy 4).ce ∧
    InSplit 4 ((withCapacity atCopy 4).dc - (withCapacity atCopy 4).dcs) ∧ 0 + 1 ≤ (withCapacity atCopy 4).dc ∧
    (∀ a, atCopy.dc - (0 + 1) ≤ a → a < atCopy.dc → ((withCapacity atCopy 4).outMem.read a).isSome) ∧
    (withCapacity atCopy 4).hasRoom (0 + 3) :=
  ⟨rfl, by decide, by unfold InSplit; decide, by decide, atCopy_present, fun c hc => by cases hc; exact le_refl _⟩
/-- T-E24a's room. -/
theorem witness_CopyElement_full :
    copyFields (.copyB4 0#4 0#12) = some (4, 0, 0) ∧ (withCapacity atCopy 3).cc + 2 ≤ (withCapacity atCopy 3).ce ∧
    InSplit 4 ((withCapacity atCopy 3).dc - (withCapacity atCopy 3).dcs) ∧ 0 + 1 ≤ (withCapacity atCopy 3).dc ∧
    (∀ a, atCopy.dc - (0 + 1) ≤ a → a < atCopy.dc → ((withCapacity atCopy 3).outMem.read a).isSome) ∧
    (withCapacity atCopy 3).params.outCapacity = some 3 ∧ 3 < (withCapacity atCopy 3).dc + (0 + 3) :=
  ⟨rfl, by decide, by unfold InSplit; decide, by decide, atCopy_present, rfl, by decide⟩
/-- The last position of the last row, with the newest byte of OUT as the source. -/
def atLastSplit : State := { atCopy with dc := 32768, outMem := [(32767, 0x41#8)] }
theorem atLastSplit_present :
    ∀ a, atLastSplit.dc - (0 + 1) ≤ a → a < atLastSplit.dc → (atLastSplit.outMem.read a).isSome := fun a h1 h2 => by
  obtain rfl : a = 32767 := by
    have h3 : 32767 ≤ a := h1
    have h4 : a < 32768 := h2
    omega
  rfl
theorem witness_CopyElement_last_split :
    copyFields (.copyB15 0#15 0#1) = some (15, 0, 0) ∧ atLastSplit.cc + 2 ≤ atLastSplit.ce ∧
    InSplit 15 (atLastSplit.dc - atLastSplit.dcs) ∧ 0 + 1 ≤ atLastSplit.dc ∧
    (∀ a, atLastSplit.dc - (0 + 1) ≤ a → a < atLastSplit.dc → (atLastSplit.outMem.read a).isSome) ∧
    atLastSplit.hasRoom (0 + 3) :=
  ⟨rfl, by decide, by unfold InSplit; decide, by decide, atLastSplit_present, fun c hc => by cases hc⟩
/-- A chunk that ends between the two bytes of the token. -/
def atCutOff : State := { atCopy with ce := 6 }
/-- A chunk that has decoded no byte. -/
def atFirst : State := { atCopy with dcs := 1 }
theorem witness_CopyElement_cut_off :
    copyFields (.copyB4 0#4 0#12) = some (4, 0, 0) ∧ atCutOff.ce < atCutOff.cc + 2 := by decide
theorem witness_CopyElement_first :
    copyFields (.copyB4 0#4 0#12) = some (4, 0, 0) ∧ atFirst.cc + 2 ≤ atFirst.ce ∧ atFirst.dc = atFirst.dcs := by decide
theorem witness_CopyElement_before_output :
    copyFields (.copyB4 1#4 0#12) = some (4, 1, 0) ∧ atCopy.cc + 2 ≤ atCopy.ce ∧
    InSplit 4 (atCopy.dc - atCopy.dcs) ∧ atCopy.dc < 1 + 1 := ⟨rfl, by decide, by unfold InSplit; decide, by decide⟩
theorem witness_ElementsKeepInputAndHost : ∃ t, exec (.flag 0x02#8) atGroup = .next t := ⟨_, rfl⟩

/-! ### The sequencer -/

theorem witness_StepRunsTheDecodedElement_sig :
    atSig.host = [] ∧ atSig.inMem.wf = true ∧ atSig.phase = .sig ∧ 1 ≤ atSig.cre ∧ atSig.inMem.read 0 = some 0x01#8 ∧
    decode .signature [0x01#8] = .ok (.sig 0x01#8, []) := ⟨rfl, by decide, rfl, by decide, rfl, rfl⟩
theorem witness_StepRunsTheDecodedElement_header :
    atChunk.host = [] ∧ atChunk.inMem.wf = true ∧ atChunk.phase = .chunk ∧ atChunk.cc + 2 ≤ atChunk.cre ∧
    atChunk.inMem.read atChunk.cc = some 0x03#8 ∧ atChunk.inMem.read (atChunk.cc + 1) = some 0x80#8 ∧
    decode .chunk [0x03#8, 0x80#8] = .ok (.hdrCmp 0#3 3#12, []) := ⟨rfl, by decide, rfl, by decide, rfl, rfl, rfl⟩
theorem witness_StepRunsTheDecodedElement_flag :
    atGroup.host = [] ∧ atGroup.inMem.wf = true ∧ atGroup.phase = .group ∧ atGroup.cc < atGroup.ce ∧
    atGroup.inMem.read atGroup.cc = some 0x02#8 ∧ decode .group [0x02#8] = .ok (.flag 0x02#8, []) :=
  ⟨rfl, by decide, rfl, by decide, rfl, rfl⟩
theorem witness_StepRunsTheDecodedElement_lit :
    atLit.host = [] ∧ atLit.inMem.wf = true ∧ atLit.phase = .token ∧ atLit.bi < 8 ∧ atLit.cc < atLit.ce ∧
    atLit.fb.getLsbD atLit.bi = false ∧ atLit.inMem.read atLit.cc = some 0x41#8 ∧
    decode .literal [0x41#8] = .ok (.lit 0x41#8, []) := ⟨rfl, by decide, rfl, by decide, by decide, by decide, rfl, rfl⟩
theorem witness_StepRunsTheDecodedElement_copy :
    atCopy.host = [] ∧ atCopy.inMem.wf = true ∧ atCopy.phase = .token ∧ atCopy.bi < 8 ∧ atCopy.cc + 2 ≤ atCopy.ce ∧
    atCopy.fb.getLsbD atCopy.bi = true ∧ 4 ≤ 4 ∧ InSplit 4 (atCopy.dc - atCopy.dcs) ∧
    atCopy.inMem.read atCopy.cc = some 0x00#8 ∧ atCopy.inMem.read (atCopy.cc + 1) = some 0x00#8 ∧
    decode (.copy 4) [0x00#8, 0x00#8] = .ok (.copyB4 0#4 0#12, []) :=
  ⟨rfl, by decide, rfl, by decide, by decide, by decide, by decide, by unfold InSplit; decide, rfl, rfl, rfl⟩
theorem witness_CutOffElementsFault_sig :
    ({ atSig with cre := 0 } : State).host = [] ∧ ({ atSig with cre := 0 } : State).phase = .sig ∧
    ({ atSig with cre := 0 } : State).cre = 0 := by decide
theorem witness_CutOffElementsFault_header :
    ({ atChunk with cre := 2 } : State).host = [] ∧ ({ atChunk with cre := 2 } : State).phase = .chunk ∧
    ({ atChunk with cre := 2 } : State).cc + 1 = ({ atChunk with cre := 2 } : State).cre := by decide
theorem witness_CutOffElementsFault_copy :
    atCutOff.host = [] ∧ atCutOff.phase = .token ∧ atCutOff.bi < 8 ∧ atCutOff.cc + 1 = atCutOff.ce ∧
    atCutOff.fb.getLsbD atCutOff.bi = true := by decide
theorem witness_CopyFirstInItsChunkFaults :
    atFirst.host = [] ∧ atFirst.phase = .token ∧ atFirst.bi < 8 ∧ atFirst.cc + 2 ≤ atFirst.ce ∧
    atFirst.fb.getLsbD atFirst.bi = true ∧ atFirst.dc = atFirst.dcs := by decide
theorem witness_EndOfGroup :
    atGroupEnd.host = [] ∧ atGroupEnd.phase = .token ∧ (atGroupEnd.bi = 8 ∨ atGroupEnd.ce ≤ atGroupEnd.cc) ∧
    Inv atGroupEnd ∧ atGroupEnd.bi < 8 := ⟨rfl, rfl, .inr (by decide), inv_atGroupEnd, by decide⟩
theorem witness_EndOfGroup_slots :
    ({ atCopy with bi := 8 } : State).host = [] ∧ ({ atCopy with bi := 8 } : State).phase = .token ∧
    ({ atCopy with bi := 8 } : State).bi = 8 := by decide
theorem witness_EndOfChunk :
    atChunkEnd.host = [] ∧ atChunkEnd.phase = .group ∧ atChunkEnd.ce ≤ atChunkEnd.cc ∧ Inv atChunkEnd :=
  ⟨rfl, rfl, by decide, inv_atChunkEnd⟩
theorem witness_EndOfRun :
    atRunEnd.host = [] ∧ atRunEnd.phase = .chunk ∧ atRunEnd.cre ≤ atRunEnd.cc ∧ Inv atRunEnd :=
  ⟨rfl, rfl, by decide, inv_atRunEnd⟩
theorem witness_RestKeepsTheState : State.reset.host = [] ∧ State.reset.phase = .idle := ⟨rfl, rfl⟩

/-! ### Start, reset and the host -/

/-- At rest, with the input placed and START pending, on an implementation that accepts exactly this length. -/
def atStart : State :=
  { State.reset with
    params := Params.mk (some 7) none none, inMem := cellsFrom 0 stream, inLen := 7, host := [.writeStart 1#1] }

theorem witness_StartSequence :
    atStart.host = .writeStart 1#1 :: [] ∧ atStart.phase = .idle ∧
    ∀ m, atStart.params.inLenMax = some m → atStart.inLen ≤ m :=
  ⟨rfl, rfl, fun m hm => by cases hm; exact le_refl _⟩
/-- A machine with another run behind it. -/
theorem witness_NothingCarriesOver :
    atStart.host = .writeStart 1#1 :: [] ∧ ({ atStart with phase := .done, dc := 4 } : State).host = atStart.host ∧
    atStart.running = false ∧ ({ atStart with phase := .done, dc := 4 } : State).running = false ∧
    atStart.params = ({ atStart with phase := .done, dc := 4 } : State).params ∧
    atStart.inMem = ({ atStart with phase := .done, dc := 4 } : State).inMem ∧
    atStart.inLen = ({ atStart with phase := .done, dc := 4 } : State).inLen ∧
    atStart.freeIdx = ({ atStart with phase := .done, dc := 4 } : State).freeIdx := by decide
theorem witness_HostWritesInARunAreIgnored :
    ({ atCopy with host := [.writeInLen 0] } : State).running = true ∧
    ({ atCopy with host := [.writeInLen 0] } : State).host = .writeInLen 0 :: [] ∧
    ({ atCopy with host := [.writeStart 1#1] } : State).running = true ∧
    ({ atCopy with host := [.writeStart 1#1] } : State).host = .writeStart 1#1 :: [] := by decide
theorem witness_HostWritesAtRest_inLen :
    ({ atDone with host := [.writeInLen 9] } : State).running = false ∧
    ({ atDone with host := [.writeInLen 9] } : State).host = .writeInLen 9 :: [] := by decide
theorem witness_HostWritesAtRest_in :
    ({ atDone with host := [.writeIn 0 0x01#8] } : State).running = false ∧
    ({ atDone with host := [.writeIn 0 0x01#8] } : State).host = .writeIn 0 0x01#8 :: [] := by decide
theorem witness_RefusedHostActs_in :
    ({ atCopy with host := [.writeIn 0 0x01#8] } : State).running = true ∧
    ({ atCopy with host := [.writeIn 0 0x01#8] } : State).host = .writeIn 0 0x01#8 :: [] := by decide
theorem witness_RefusedHostActs_start :
    ({ atStart with inLen := 8 } : State).running = false ∧
    ({ atStart with inLen := 8 } : State).host = .writeStart 1#1 :: [] ∧
    ({ atStart with inLen := 8 } : State).params.inLenMax = some 7 ∧ 7 < ({ atStart with inLen := 8 } : State).inLen := by
  decide
theorem witness_HardwareReset : ({ atCopy with host := [.hardReset] } : State).host = .hardReset :: [] := rfl
theorem atDone_noStart : ∀ rest, atDone.host ≠ .writeStart 1#1 :: rest := fun _ h => by cases h
theorem atDone_noReset : ∀ rest, atDone.host ≠ .hardReset :: rest := fun _ h => by cases h
theorem witness_RestIsLeftOnlyByStartOrReset :
    atDone.running = false ∧ (∀ rest, atDone.host ≠ .writeStart 1#1 :: rest) ∧
    (∀ rest, atDone.host ≠ .hardReset :: rest) ∧ step atDone = .next atDone :=
  ⟨rfl, atDone_noStart, atDone_noReset, rfl⟩

/-! ### Whole-machine rules -/

theorem step_atCopy : ∃ t, step atCopy = .next t := ⟨_, rfl⟩
theorem atCopy_noReset : ∀ rest, atCopy.host ≠ .hardReset :: rest := fun _ h => by cases h

theorem witness_StepKeepsTheInvariant : Inv atCopy ∧ ∃ t, step atCopy = .next t := ⟨inv_atCopy, step_atCopy⟩
theorem witness_StepKeepsBuffersCanonical :
    atCopy.inMem.wf = true ∧ atCopy.outMem.wf = true ∧ ∃ t, step atCopy = .next t :=
  ⟨by decide, by decide, step_atCopy⟩
theorem witness_ParametersNeverChange : ∃ t, step atCopy = .next t := step_atCopy
theorem witness_SplitNeverExceedsFifteen :
    Inv atCopy ∧ atCopy.phase = .token ∧ computeHelpData (atCopy.dc - atCopy.dcs) = some (helpDataAt 4) :=
  ⟨inv_atCopy, rfl, by decide⟩
theorem witness_PlacedRunAlwaysAdvances :
    Inv atSig ∧ atSig.running = true ∧ atSig.host = [] ∧ atSig.placed 0 atSig.cre :=
  ⟨inv_atSig, rfl, rfl, placed_atSig⟩
theorem witness_FaultEntryNamesAReason :
    (withCapacity atLit 0).running = true ∧ ∃ t, step (withCapacity atLit 0) = .next t ∧ t.phase = .fault :=
  ⟨rfl, _, rfl, rfl⟩
theorem witness_InputIsFixedInARun :
    atCopy.running = true ∧ (∀ rest, atCopy.host ≠ .hardReset :: rest) ∧
    ∃ t, step atCopy = .next t ∧ t.phase ≠ .fault :=
  ⟨rfl, atCopy_noReset, _, rfl, by decide⟩
theorem witness_OutputIsOnlyAppended :
    atCopy.running = true ∧ (∀ rest, atCopy.host ≠ .hardReset :: rest) ∧
    (∃ t, step atCopy = .next t ∧ t.phase ≠ .fault) ∧ 0 < atCopy.dc :=
  ⟨rfl, atCopy_noReset, ⟨_, rfl, by decide⟩, by decide⟩
theorem witness_ReadCursorNeverDecreases :
    Inv atCopy ∧ atCopy.running = true ∧ atCopy.phase ≠ .sig ∧ (∀ rest, atCopy.host ≠ .hardReset :: rest) ∧
    ∃ t, step atCopy = .next t ∧ t.phase ≠ .fault :=
  ⟨inv_atCopy, rfl, by decide, atCopy_noReset, _, rfl, by decide⟩
theorem witness_OutputSizeIsBounded :
    Inv atRunEnd ∧ atRunEnd.host = [] ∧ atRunEnd.phase = .chunk ∧ ∃ t, step atRunEnd = .next t ∧ t.phase = .done :=
  ⟨inv_atRunEnd, rfl, rfl, _, rfl, rfl⟩
theorem witness_EveryStepShortensTheRun :
    Inv atCopy ∧ atCopy.running = true ∧ (∀ rest, atCopy.host ≠ .hardReset :: rest) ∧ ∃ t, step atCopy = .next t :=
  ⟨inv_atCopy, rfl, atCopy_noReset, step_atCopy⟩
theorem witness_EveryRunEnds :
    Inv atSig ∧ atSig.phase = .sig ∧ atSig.host = [] ∧ atSig.placed 0 atSig.cre :=
  ⟨inv_atSig, rfl, rfl, placed_atSig⟩
/-- IN with the byte after the chunk's end, and the bytes before the cursor, replaced. -/
theorem witness_ReadsStayInTheirBounds :
    atCopy.host = [] ∧ atCopy.inMem.wf = true ∧ (cellsFrom 5 [0x00#8, 0x00#8, 0xFF#8]).wf = true ∧
    atCopy.phase = .token ∧
    SameBetween atCopy.inMem (cellsFrom 5 [0x00#8, 0x00#8, 0xFF#8]) atCopy.cc (min atCopy.ce (atCopy.cc + 2)) :=
  ⟨rfl, by decide, by decide, rfl, fun a h1 h2 => by
    have h3 : 5 ≤ a := h1
    have h4 : a < 7 := h2
    interval_cases a <;> rfl⟩
/-- Cursors of 3 bits on an implementation that accepts 7 bytes and makes at most 7. -/
def narrow : State := { atCopy with params := Params.mk (some 7) (some 7) (some 3) }
theorem witness_CursorsFitTheirWidth :
    Inv narrow ∧ narrow.widthAdequate ∧ narrow.cursorsFit ∧ ∃ t, step narrow = .next t :=
  ⟨⟨by decide, by decide, by decide, by decide,
      show InRun narrow ∧ narrow.expansionBounded ∧ InChunk narrow from
        ⟨⟨rfl, rfl, rfl, fun c hc => by cases hc; decide⟩, by unfold State.expansionBounded; decide,
          ⟨by decide, by decide, by decide, by decide, by decide, by decide, by decide⟩⟩⟩,
    fun w hw => by cases hw; exact ⟨⟨7, rfl, by decide⟩, 7, rfl, by decide⟩,
    fun w hw => by cases hw; decide, _, rfl⟩
theorem witness_RunComputesTheListing :
    atSig.phase = .sig ∧ atSig.host = [] ∧ atSig.inMem.wf = true ∧
    (∀ a, a < stream.length → atSig.inMem.read a = stream[a]?) ∧ atSig.cre = stream.length ∧ atSig.dc = 0 ∧
    atSig.outMem = [] :=
  ⟨rfl, rfl, by decide, fun a _ => by
    show (cellsFrom 0 stream).read a = _
    rw [read_cellsFrom, if_pos (Nat.zero_le _), Nat.sub_zero], rfl, rfl, rfl⟩
/-- The listing on T-E4's stream gives T-E4's output. -/
theorem test_listing : decompress none stream = .done [0x41, 0x41, 0x41, 0x41] := by decide
/-- The listing on T-E11's stream gives T-E11's fault. -/
theorem test_listing_fault :
    decompress none [0x01, 0x02, 0x80, 0x00, 0x41, 0x42, 0x02, 0x80, 0x01, 0x00, 0x00] =
      .fault .undefinedHelpData ⟨.none, 9⟩ := by decide

end Sys2Proof.Tests
end

section
/-! The width of the cursors (R8, D2): what each update of the registers needs so that its cursors fit, then the
elements, the hardware's own step and the host's acts. A read cursor stays at or below a limit that fits already, a
write cursor at or below `OUT_CAPACITY`, and a free value is reduced to the width. -/

namespace Sys2Proof.Machine

open Sys2Proof

/-! ### What bounds a single cursor -/

/-- A free value of a cursor is one its register can hold (R8). -/
theorem State.freeCursor_lt {s : State} {w : Nat} (hw : s.params.cursorW = some w) (k : Nat) :
    s.freeCursor k < 2 ^ w := by
  simp only [State.freeCursor, hw]
  exact Nat.mod_lt _ (Nat.two_pow_pos w)

/-- An adequate width holds every write cursor that OUT has room for (D2, R54). -/
theorem State.widthAdequate.lt_of_hasRoom {s : State} {w n : Nat} (hs : s.widthAdequate)
    (hw : s.params.cursorW = some w) (hr : s.hasRoom n) : s.dc + n < 2 ^ w := by
  obtain ⟨-, c, hc, hlt⟩ := hs w hw
  exact lt_of_le_of_lt (hr c hc) hlt

/-- An adequate width holds every input length the implementation accepts (D2, D4). -/
theorem State.widthAdequate.inLen_lt {s : State} {w : Nat} (hs : s.widthAdequate)
    (hw : s.params.cursorW = some w) (ha : s.inLenTooLarge = false) : s.inLen < 2 ^ w := by
  obtain ⟨⟨m, hm, hlt⟩, -⟩ := hs w hw
  have hle : s.inLen ≤ m := by simpa [State.inLenTooLarge, hm] using ha
  omega

/-! ### The updates of the registers -/

theorem State.raise_cursorsFit (s : State) (r : FaultReason) (i : FaultInfo) : (s.raise r i).cursorsFit := by
  intro w hw
  have hfree := State.freeCursor_lt (s := s) hw
  simp [hfree]

theorem State.hardReset_cursorsFit (s : State) : s.hardReset.cursorsFit := by
  intro w hw
  have hfree := State.freeCursor_lt (s := s) hw
  simp [hfree]

theorem State.startRun_cursorsFit {s : State} (hs : s.widthAdequate) (ha : s.inLenTooLarge = false) :
    s.startRun.cursorsFit := by
  intro w hw
  have hfree := State.freeCursor_lt (s := s) hw
  have hlen := hs.inLen_lt hw ha
  simp [hfree, hlen]

theorem State.passSignature_cursorsFit {s : State} (hf : s.cursorsFit) (hne : s.cre ≠ 0) :
    s.passSignature.cursorsFit := by
  intro w hw
  obtain ⟨hcre, -, hccs, hdc, hdcs, hce⟩ := hf w hw
  refine ⟨hcre, ?_, hccs, hdc, hdcs, hce⟩
  rw [State.passSignature_cc]
  omega

theorem State.openChunk_cursorsFit {s : State} (hf : s.cursorsFit) (hb : s.cc + 2 ≤ s.cre) (n : Nat) :
    (s.openChunk n).cursorsFit := by
  intro w hw
  obtain ⟨hcre, hcc, -, hdc, -, -⟩ := hf w hw
  exact ⟨hcre, lt_of_le_of_lt hb hcre, hcc, hdc, hdc, lt_of_le_of_lt (Nat.min_le_left _ _) hcre⟩

theorem State.takeFlag_cursorsFit {s : State} (hf : s.cursorsFit) (hb : s.cc + 1 ≤ s.ce) (f : Byte) :
    (s.takeFlag f).cursorsFit := by
  intro w hw
  obtain ⟨hcre, -, hccs, hdc, hdcs, hce⟩ := hf w hw
  exact ⟨hcre, lt_of_le_of_lt hb hce, hccs, hdc, hdcs, hce⟩

theorem State.tookToken_cursorsFit {s : State} {k n : Nat} (hs : s.widthAdequate) (hf : s.cursorsFit)
    (hb : s.cc + k ≤ s.ce) (hr : s.hasRoom n) (out : Memory) : (s.tookToken k n out).cursorsFit := by
  intro w hw
  obtain ⟨hcre, -, hccs, -, hdcs, hce⟩ := hf w hw
  exact ⟨hcre, lt_of_le_of_lt hb hce, hccs, hs.lt_of_hasRoom hw hr, hdcs, hce⟩

theorem State.tookPayload_cursorsFit {s : State} (hs : s.widthAdequate) (hf : s.cursorsFit)
    (hb : s.cc + 4096 ≤ s.cre) (hr : s.hasRoom 4096) (out : Memory) : (s.tookPayload out).cursorsFit := by
  intro w hw
  obtain ⟨hcre, -, hccs, -, hdcs, hce⟩ := hf w hw
  exact ⟨hcre, lt_of_le_of_lt hb hcre, hccs, hs.lt_of_hasRoom hw hr, hdcs, hce⟩

/-! ### The elements -/

theorem execSig_cursorsFit {b : Byte} {s t : State} (hf : s.cursorsFit) (h : execSig b s = .next t) :
    t.cursorsFit := by
  unfold execSig at h
  split at h
  · cases h
    exact s.raise_cursorsFit _ _
  next hne =>
    split at h <;> cases h
    · exact s.passSignature_cursorsFit hf hne
    · exact s.raise_cursorsFit _ _

theorem rawPayload_cursorsFit {s t : State} (hm : s.inMem.wf = true) (hs : s.widthAdequate) (hf : s.cursorsFit)
    (h : rawPayload s = .next t) : t.cursorsFit := by
  rcases rawPayload_cases s hm with
    ⟨-, he⟩ | ⟨hb, ⟨he, -⟩ | ⟨out, he, hap, -, -⟩ | ⟨a, he, -, -⟩⟩ <;> cases he.symm.trans h
  · exact s.raise_cursorsFit _ _
  · exact s.tookPayload_cursorsFit hs hf hb (hap.room (by decide)) out
  · exact s.raise_cursorsFit _ _

/-- The start of a chunk leaves cursors that fit when what follows it does. -/
theorem chunkStart_cursorsFit {hdr : Half} {rest : State → Host.Outcome State Fault Refusal} {s t : State}
    (hf : s.cursorsFit)
    (hrest : ∀ n, (s.openChunk n).cursorsFit → rest (s.openChunk n) = .next t → t.cursorsFit)
    (h : chunkStart hdr rest s = .next t) : t.cursorsFit := by
  rcases chunkStart_cases hdr rest s with ⟨-, he⟩ | ⟨hb, he⟩
  · cases he.symm.trans h
    exact s.raise_cursorsFit _ _
  · exact hrest _ (s.openChunk_cursorsFit hf hb _) (he.symm.trans h)

theorem execLit_cursorsFit {b : Byte} {s t : State} (hs : s.widthAdequate) (hf : s.cursorsFit)
    (hb : s.cc + 1 ≤ s.ce) (h : execLit b s = .next t) : t.cursorsFit := by
  unfold execLit at h
  split at h <;> cases h
  · exact s.raise_cursorsFit _ _
  next hfull =>
    have hr : s.hasRoom 1 := capacityReached_eq_false.1 (Bool.eq_false_of_not_eq_true hfull)
    exact s.tookToken_cursorsFit hs hf hb hr _

theorem copyToken_cursorsFit {token : Half} {s t : State} (hs : s.widthAdequate) (hf : s.cursorsFit)
    (h : copyToken token s = .next t) : t.cursorsFit := by
  rcases copyToken_cases token s with
    ⟨-, he⟩ | ⟨hb, ⟨-, he⟩ | ⟨hd, -, ⟨-, he⟩ | ⟨-, -, he⟩ |
      ⟨-, -, ⟨out, he, hap, -⟩ | ⟨a, he, -⟩ | ⟨he, -, -⟩⟩⟩⟩ <;> cases he.symm.trans h
  · exact s.raise_cursorsFit _ _
  · exact s.raise_cursorsFit _ _
  · exact s.raise_cursorsFit _ _
  · have hlen : unpackLength token hd ≠ 0 := by
      have := (unpackLength_bounds token hd).1
      omega
    exact s.tookToken_cursorsFit hs hf hb (hap.room hlen) out
  · exact s.raise_cursorsFit _ _

/-- Every element leaves cursors that fit. FLAG and LIT do not test the chunk's end themselves: the fetch does (R52). -/
theorem exec_cursorsFit {i : Instr} {s t : State} (hm : s.inMem.wf = true) (hs : s.widthAdequate)
    (hf : s.cursorsFit) (hread : i.context = .group ∨ i.context = .literal → s.cc + 1 ≤ s.ce)
    (h : exec i s = .next t) : t.cursorsFit := by
  rcases exec_kinds i with ⟨b, rfl, he⟩ | ⟨x, sz, rfl, he⟩ | ⟨x, sz, rfl, he⟩ | ⟨f, rfl, he⟩ | ⟨b, rfl, he⟩ |
    ⟨_, _, _, token, -, -, he⟩ <;> rw [he] at h
  · exact execSig_cursorsFit hf h
  · exact chunkStart_cursorsFit hf (fun n hopen => rawPayload_cursorsFit (s := s.openChunk n) hm hs hopen) h
  · refine chunkStart_cursorsFit hf (fun n hopen hg => ?_) h
    cases hg
    exact hopen
  · cases h
    exact s.takeFlag_cursorsFit hf (hread (.inl rfl)) f
  · exact execLit_cursorsFit hs hf (hread (.inr rfl)) h
  · exact copyToken_cursorsFit hs hf h

/-! ### The step -/

/-- A flag byte or a literal that passed the bound check of R52 lies below the chunk's end. -/
theorem choose_take_one_byte {s : State} {c : Context} {a limit : Nat} (h : choose s = .take c a limit)
    (hb : a + c.width ≤ limit) (hc : c = .group ∨ c = .literal) : s.cc + 1 ≤ s.ce := by
  rcases choose_take h with ⟨-, rfl, -⟩ | ⟨-, -, rfl, -⟩ | ⟨-, -, rfl, rfl, rfl⟩ | ⟨-, -, -, -, rfl, rfl, rfl⟩ |
    ⟨-, -, -, -, -, -, -, rfl⟩
  · simp at hc
  · simp at hc
  · exact hb
  · exact hb
  · simp at hc

theorem advance_cursorsFit {s t : State} (hm : s.inMem.wf = true) (hs : s.widthAdequate) (hf : s.cursorsFit)
    (h : advance s = .next t) : t.cursorsFit := by
  rcases advance_cases s with ⟨-, he⟩ | ⟨p, -, he⟩ |
    ⟨c, a, limit, hc, ⟨-, he⟩ | ⟨hb, ⟨-, he⟩ | ⟨bs, i, rest, -, hd, he⟩ | ⟨n, -, -, he⟩⟩⟩ |
    ⟨-, ⟨-, he⟩ | ⟨-, he⟩⟩ <;> rw [he] at h
  · cases h
    exact hf
  · cases h
    exact hf
  · cases h
    exact s.raise_cursorsFit _ _
  · cases h
  · have hi := decode_context hd
    exact exec_cursorsFit hm hs hf (fun h1 => choose_take_one_byte hc hb (hi ▸ h1)) h
  · cases h
  · cases h
    exact s.raise_cursorsFit _ _
  · cases h
    exact s.raise_cursorsFit _ _

theorem hostEffect_cursorsFit {a : HostAct} {s t : State} (hs : s.widthAdequate) (hf : s.cursorsFit)
    (h : hostEffect a s = .taken t) : t.cursorsFit := by
  rcases hostEffect_cases a s with ⟨he, -⟩ | ⟨x, b, -, -, he⟩ | ⟨x, b, -, -, he⟩ | ⟨n, -, -, he⟩ |
    ⟨-, -, ha, he⟩ | ⟨-, -, -, he⟩ | ⟨-, he⟩ <;> cases he.symm.trans h
  · exact hf
  · exact hf
  · exact s.startRun_cursorsFit hs ha
  · exact s.hardReset_cursorsFit

/-- Settles O48, by the cases of a step: the hardware's own step, or an act of the host. Of the invariant it needs
only that IN is canonical. -/
theorem cursorsFitTheirWidth : Obligations.CursorsFitTheirWidth := by
  intro s t hinv hs hf h
  rcases step_cases s with ⟨-, he⟩ | ⟨a, rest, -, ⟨-, he⟩ | ⟨u, hu, he⟩ | ⟨r, -, he⟩⟩ <;> rw [he] at h
  · exact advance_cursorsFit hinv.inCanonical hs hf h
  · exact advance_cursorsFit (s := { s with host := rest }) hinv.inCanonical hs hf h
  · cases h
    exact hostEffect_cursorsFit (s := { s with host := rest }) hs hf hu
  · cases h

end Sys2Proof.Machine
end

section
/-! What a next state is: of an element, of the hardware's own step, of a step of a run. A step that does not raise
keeps the input side and only appends to OUT (`Progress`). -/

namespace Sys2Proof.Machine

open Sys2Proof

/-- `t` is `s` with a fault taken for a named reason (R206). -/
def Raises (s t : State) : Prop := ∃ r info, r ≠ .none ∧ t = s.raise r info

theorem State.raises (s : State) {r : FaultReason} (hr : r ≠ .none) (info : FaultInfo) :
    Raises s (s.raise r info) := ⟨r, info, hr, rfl⟩

/-- How an element decoded in a context completes, with the bounds its meaning has tested. -/
inductive Completes (s : State) : Context → State → Prop where
  | signature (hne : s.cre ≠ 0) : Completes s .signature s.passSignature
  | compressed {size : Nat} (hmin : 3 ≤ size) (hmax : size ≤ 4098) (hb : s.cc + 2 ≤ s.cre) :
    Completes s .chunk ((s.openChunk size).enterPhase .group)
  | raw {size : Nat} {out : Memory} (hb : s.cc + 4098 ≤ s.cre)
    (hap : Appended s.params.outCapacity 4096 s.dc s.outMem out) :
    Completes s .chunk ((s.openChunk size).tookPayload out)
  | flag (f : Byte) : Completes s .group (s.takeFlag f)
  | literal {out : Memory} (hap : Appended s.params.outCapacity 1 s.dc s.outMem out) :
    Completes s .literal (s.tookToken 1 1 out)
  | copy {split : Nat} {token : Half} {hd : HelpData} {out : Memory} (hb : s.cc + 2 ≤ s.ce)
    (hhd : computeHelpData s.difference = some hd)
    (hap : Appended s.params.outCapacity (unpackLength token hd) s.dc s.outMem out) :
    Completes s (.copy split) (s.tookToken 2 (unpackLength token hd) out)

/-! ### The elements -/

theorem execSig_next {b : Byte} {s t : State} (h : execSig b s = .next t) :
    Raises s t ∨ Completes s .signature t := by
  unfold execSig at h
  split at h
  · cases h
    exact .inl (s.raises (by decide) _)
  next hne =>
    split at h <;> cases h
    · exact .inr (.signature hne)
    · exact .inl (s.raises (by decide) _)

/-- The next states of a raw payload, whether IN is canonical or not. -/
theorem rawPayload_next {s t : State} (h : rawPayload s = .next t) :
    Raises s t ∨ s.cc + 4096 ≤ s.cre ∧
      ∃ out, Appended s.params.outCapacity 4096 s.dc s.outMem out ∧ t = s.tookPayload out := by
  unfold rawPayload at h
  split at h
  · cases h
    exact .inl (s.raises (by decide) _)
  next hb =>
    split at h
    · cases h
    next bs hbs =>
      have hlen := (Memory.readBytes_spec hbs).1
      rcases appendLoop_cases s.params.outCapacity bs s.dc s.outMem with ⟨out, he, hap, -⟩ | ⟨a, he, -⟩ <;>
        simp only [he] at h <;> cases h
      · exact .inr ⟨by omega, out, hlen ▸ hap, rfl⟩
      · exact .inl (s.raises (by decide) _)

theorem execLit_next {b : Byte} {s t : State} (h : execLit b s = .next t) :
    Raises s t ∨ Completes s .literal t := by
  unfold execLit at h
  split at h <;> cases h
  · exact .inl (s.raises (by decide) _)
  next hfull =>
    exact .inr (.literal ((Appended.zero _ _ _).succ (Bool.eq_false_of_not_eq_true hfull)))

theorem copyToken_next {token : Half} {s t : State} (split : Nat) (h : copyToken token s = .next t) :
    Raises s t ∨ Completes s (.copy split) t := by
  rcases copyToken_cases token s with
    ⟨-, he⟩ | ⟨hb, ⟨-, he⟩ | ⟨hd, hhd, ⟨-, he⟩ | ⟨-, -, he⟩ |
      ⟨-, -, ⟨out, he, hap, -⟩ | ⟨a, he, -⟩ | ⟨he, -, -⟩⟩⟩⟩ <;> cases he.symm.trans h
  · exact .inl (s.raises (by decide) _)
  · exact .inl (s.raises (by decide) _)
  · exact .inl (s.raises (by decide) _)
  · exact .inr (.copy hb hhd hap)
  · exact .inl (s.raises (by decide) _)

theorem execHdrRaw_next {hdr : Half} {s t : State} (h : chunkStart hdr rawPayload s = .next t) :
    Raises s t ∨ Completes s .chunk t := by
  rcases chunkStart_cases hdr rawPayload s with ⟨-, he⟩ | ⟨-, he⟩ <;> rw [he] at h
  · cases h
    exact .inl (s.raises (by decide) _)
  · rcases rawPayload_next h with ⟨r, info, hr, rfl⟩ | ⟨hb, out, hap, rfl⟩
    · exact .inl (s.raises hr info)
    · rw [State.openChunk_cc, State.openChunk_cre] at hb
      exact .inr (.raw (by omega) hap)

theorem execHdrCmp_next {hdr : Half} {s t : State}
    (h : chunkStart hdr (fun u => .next (u.enterPhase .group)) s = .next t) :
    Raises s t ∨ Completes s .chunk t := by
  rcases chunkStart_cases hdr (fun u => .next (u.enterPhase .group)) s with ⟨-, he⟩ | ⟨hb, he⟩ <;>
    cases he.symm.trans h
  · exact .inl (s.raises (by decide) _)
  · obtain ⟨hmin, hmax⟩ := headerSize_bounds hdr
    exact .inr (.compressed hmin hmax hb)

theorem context_of_copyFields {i : Instr} {n o l : Nat} (h : copyFields i = some (n, o, l)) :
    i.context = .copy n := by
  cases i <;> simp [copyFields] at h <;> simp [Instr.context, h]

/-- An element that answers a next state has raised or completed. -/
theorem exec_next {i : Instr} {s t : State} (h : exec i s = .next t) : Raises s t ∨ Completes s i.context t := by
  rcases exec_kinds i with ⟨b, rfl, he⟩ | ⟨x, sz, rfl, he⟩ | ⟨x, sz, rfl, he⟩ | ⟨f, rfl, he⟩ | ⟨b, rfl, he⟩ |
    ⟨n, _, _, token, hf, -, he⟩ <;> rw [he] at h
  · exact execSig_next h
  · exact execHdrRaw_next h
  · exact execHdrCmp_next h
  · cases h
    exact .inr (.flag f)
  · exact execLit_next h
  · rw [context_of_copyFields hf]
    exact copyToken_next n h

/-! ### The hardware's own step -/

/-- The hardware's own step raises, rests, moves to a phase, or completes the element of its context, whose bytes lie
below the limit of R52. -/
theorem advance_next {s t : State} (h : advance s = .next t) :
    Raises s t ∨ (s.atRest = true ∧ t = s) ∨ (∃ p, choose s = .moveTo p ∧ t = s.enterPhase p) ∨
    ∃ c a limit, choose s = .take c a limit ∧ a + c.width ≤ limit ∧ Completes s c t := by
  rcases advance_cases s with ⟨hr, he⟩ | ⟨p, hp, he⟩ |
    ⟨c, a, limit, hc, ⟨-, he⟩ | ⟨hb, ⟨-, he⟩ | ⟨bs, i, rest, -, hd, he⟩ | ⟨n, -, -, he⟩⟩⟩ |
    ⟨-, ⟨-, he⟩ | ⟨-, he⟩⟩ <;> rw [he] at h
  · cases h
    exact .inr (.inl ⟨hr, rfl⟩)
  · cases h
    exact .inr (.inr (.inl ⟨p, hp, rfl⟩))
  · cases h
    exact .inl (s.raises (by decide) _)
  · cases h
  · rcases exec_next h with hr | hcomp
    · exact .inl hr
    · exact .inr (.inr (.inr ⟨c, a, limit, hc, hb, decode_context hd ▸ hcomp⟩))
  · cases h
  · cases h
    exact .inl (s.raises (by decide) _)
  · cases h
    exact .inl (s.raises (by decide) _)

/-- What every step that does not raise has in common: the input side and the fault reason are kept (R21, R24, R62) and
OUT is appended to (R22, R27). -/
structure Progress (s t : State) : Prop where
  params : t.params = s.params
  inMem : t.inMem = s.inMem
  inLen : t.inLen = s.inLen
  host : t.host = s.host
  cre : t.cre = s.cre
  reason : t.faultReason = s.faultReason
  appended : ∃ n, Appended s.params.outCapacity n s.dc s.outMem t.outMem ∧ t.dc = s.dc + n

/-- A step that leaves OUT alone appends nothing. -/
theorem Progress.of_no_output {s t : State} (params : t.params = s.params) (inMem : t.inMem = s.inMem)
    (inLen : t.inLen = s.inLen) (host : t.host = s.host) (cre : t.cre = s.cre)
    (reason : t.faultReason = s.faultReason) (out : t.outMem = s.outMem) (dc : t.dc = s.dc) : Progress s t :=
  ⟨params, inMem, inLen, host, cre, reason, 0, out ▸ Appended.zero _ _ _, dc⟩

theorem Progress.refl (s : State) : Progress s s := .of_no_output rfl rfl rfl rfl rfl rfl rfl rfl

theorem State.enterPhase_progress (s : State) (p : Phase) : Progress s (s.enterPhase p) :=
  .of_no_output rfl rfl rfl rfl rfl rfl rfl rfl

theorem Completes.progress {s t : State} {c : Context} (h : Completes s c t) : Progress s t := by
  cases h with
  | signature _ => exact .of_no_output rfl rfl rfl rfl rfl rfl rfl rfl
  | compressed _ _ _ => exact .of_no_output rfl rfl rfl rfl rfl rfl rfl rfl
  | flag f => exact .of_no_output rfl rfl rfl rfl rfl rfl rfl rfl
  | raw _ hap => exact ⟨rfl, rfl, rfl, rfl, rfl, rfl, 4096, hap, rfl⟩
  | literal hap => exact ⟨rfl, rfl, rfl, rfl, rfl, rfl, 1, hap, rfl⟩
  | copy _ _ hap => exact ⟨rfl, rfl, rfl, rfl, rfl, rfl, _, hap, rfl⟩

theorem advance_raises_or_progress {s t : State} (h : advance s = .next t) : Raises s t ∨ Progress s t := by
  rcases advance_next h with hr | ⟨-, rfl⟩ | ⟨p, -, rfl⟩ | ⟨c, a, limit, -, -, hcomp⟩
  · exact .inl hr
  · exact .inr (.refl _)
  · exact .inr (s.enterPhase_progress p)
  · exact .inr hcomp.progress

theorem advance_progress {s t : State} (h : advance s = .next t) (ht : t.phase ≠ .fault) : Progress s t := by
  rcases advance_raises_or_progress h with ⟨r, info, -, rfl⟩ | hp
  · exact absurd rfl ht
  · exact hp

/-- The frame of a raise and of a completed element alike (R38, R62). -/
theorem input_kept {s t : State} (h : Raises s t ∨ Progress s t) :
    t.params = s.params ∧ t.inMem = s.inMem ∧ t.inLen = s.inLen ∧ t.host = s.host := by
  rcases h with ⟨r, info, -, rfl⟩ | hp
  · exact ⟨rfl, rfl, rfl, rfl⟩
  · exact ⟨hp.params, hp.inMem, hp.inLen, hp.host⟩

/-! ### The step -/

theorem running_eq_true {s : State} : s.running = true ↔ s.atRest = false := by simp [State.running]

theorem running_eq_false {s : State} : s.running = false ↔ s.atRest = true := by simp [State.running]

theorem step_of_no_effect {s : State} {a : HostAct} {rest : List HostAct} (hh : s.host = a :: rest)
    (he : hostEffect a { s with host := rest } = .none) : step s = advance { s with host := rest } := by
  simp only [step, hh, he]

theorem step_of_taken {s t : State} {a : HostAct} {rest : List HostAct} (hh : s.host = a :: rest)
    (he : hostEffect a { s with host := rest } = .taken t) : step s = .next t := by
  simp only [step, hh, he]

/-- A next state comes from the hardware's own step or from the host's pending act. -/
theorem step_next {s t : State} (h : step s = .next t) :
    (∃ rest, advance { s with host := rest } = .next t) ∨
    ∃ a rest, s.host = a :: rest ∧ hostEffect a { s with host := rest } = .taken t := by
  rcases step_cases s with ⟨hh, he⟩ | ⟨a, rest, hh, ⟨-, he⟩ | ⟨u, hu, he⟩ | ⟨r, -, he⟩⟩ <;> rw [he] at h
  · refine .inl ⟨[], ?_⟩
    rwa [← hh]
  · exact .inl ⟨rest, h⟩
  · cases h
    exact .inr ⟨a, rest, hh, hu⟩
  · cases h

/-- In a run the only act of the host that a step takes is a hardware reset (R33, R232). -/
theorem step_next_of_running {s t : State} (hrun : s.running = true)
    (hreset : ∀ rest, s.host ≠ .hardReset :: rest) (h : step s = .next t) :
    ∃ rest, advance { s with host := rest } = .next t := by
  rcases step_next h with hadv | ⟨a, rest, hh, hu⟩
  · exact hadv
  · have hr := running_eq_true.1 hrun
    rcases hostEffect_cases a { s with host := rest } with ⟨he, -⟩ | ⟨_, _, -, h1, -⟩ | ⟨_, _, -, -, he⟩ |
      ⟨_, -, h1, -⟩ | ⟨-, h1, -, -⟩ | ⟨-, h1, -, -⟩ | ⟨rfl, -⟩
    · cases he.symm.trans hu
    · cases hr.symm.trans h1
    · cases he.symm.trans hu
    · cases hr.symm.trans h1
    · cases hr.symm.trans h1
    · cases hr.symm.trans h1
    · exact absurd hh (hreset rest)

theorem hostEffect_params {a : HostAct} {s t : State} (h : hostEffect a s = .taken t) : t.params = s.params := by
  rcases hostEffect_cases a s with ⟨he, -⟩ | ⟨_, _, -, -, he⟩ | ⟨_, _, -, -, he⟩ | ⟨_, -, -, he⟩ |
    ⟨-, -, -, he⟩ | ⟨-, -, -, he⟩ | ⟨-, he⟩ <;> cases he.symm.trans h <;> rfl

end Sys2Proof.Machine
end

section
/-! What a step keeps, from every state (10_state.md): the parameters, the input of a run, the output written so far. -/

namespace Sys2Proof.Machine

open Sys2Proof

/-- Settles O17: an element that raises and one that completes keep the input side alike. -/
theorem elementsKeepInputAndHost : Obligations.ElementsKeepInputAndHost :=
  fun _ _ _ h => input_kept ((exec_next h).imp_right Completes.progress)

/-- Settles O37, by the two sources of a next state: the hardware's own step and an act of the host. -/
theorem parametersNeverChange : Obligations.ParametersNeverChange := by
  intro s t h
  rcases step_next h with ⟨rest, hadv⟩ | ⟨a, rest, -, hu⟩
  · exact (input_kept (advance_raises_or_progress hadv)).1
  · exact hostEffect_params (s := { s with host := rest }) hu

/-- Settles O41: in a run the step is the hardware's own, which raises or makes progress. -/
theorem inputIsFixedInARun : Obligations.InputIsFixedInARun := by
  intro s t hrun hreset h
  obtain ⟨rest, hadv⟩ := step_next_of_running hrun hreset h
  obtain ⟨-, hin, hlen, -⟩ := input_kept (advance_raises_or_progress hadv)
  exact ⟨hin, hlen, fun ht => (advance_progress hadv ht).cre⟩

/-- Settles O42: a step that does not raise appends at `dc`, and an append leaves the addresses below it. -/
theorem outputIsOnlyAppended : Obligations.OutputIsOnlyAppended := by
  intro s t hrun hreset h ht
  obtain ⟨rest, hadv⟩ := step_next_of_running hrun hreset h
  obtain ⟨n, hap, hdc⟩ := (advance_progress hadv ht).appended
  exact ⟨hdc ▸ Nat.le_add_right _ _, fun a ha => hap.frame a (.inl ha)⟩

end Sys2Proof.Machine
end

section
/-! The host's side (10_state.md rules R33, R36): the codes it reads, the state it finds after power-on, the writes it
makes. -/

namespace Sys2Proof.Machine

open Sys2Proof

/-- Settles O25: each value is a field of `State.reset` or a view of its phase. -/
theorem resetState : Obligations.ResetState := ⟨rfl, rfl, rfl, rfl⟩

/-- Settles O33: `STATUS` by the phases, the other codes by their tables. -/
theorem statusAndFaultCodes : Obligations.StatusAndFaultCodes := by
  refine ⟨fun s => ?_, rfl, rfl, rfl, rfl, rfl, rfl, rfl, rfl⟩
  simp only [State.status, State.running, State.atRest]
  cases s.phase <;> decide

/-- Settles O28: in a run the write, like the act that does nothing, leaves the step to the hardware. -/
theorem hostWritesInARunAreIgnored : Obligations.HostWritesInARunAreIgnored := by
  intro s rest n v hrun hh
  have hr := running_eq_true.1 hrun
  rw [step_of_no_effect (s := { s with host := .pass :: rest }) rfl rfl]
  rcases hh with hh | hh
  · exact step_of_no_effect hh (if_neg (Bool.eq_false_iff.1 hr))
  · exact step_of_no_effect hh (if_neg fun ⟨_, h1⟩ => Bool.eq_false_iff.1 hr h1)

/-- Settles O29: at rest the step is the act, and an act of writing writes just its target. -/
theorem hostWritesAtRest : Obligations.HostWritesAtRest := by
  intro s rest hrun
  have hr := running_eq_false.1 hrun
  refine ⟨fun n hh => step_of_taken hh (if_pos hr), fun x b hh => ?_⟩
  exact ⟨s.inMem.write x b, step_of_taken hh (if_pos hr), Memory.read_write_same _ _ _,
    fun a ha => Memory.read_write_ne _ _ ha⟩

end Sys2Proof.Machine
end

section
/-! The invariant of the machine: it holds after power-on, and each act of the host, each raise, each move of the
sequencer and each completed element keeps it. -/

namespace Sys2Proof.Machine

open Sys2Proof

/-! ### The part of the invariant that depends on the phase -/

theorem phaseInv_sig {s : State} (h : s.phase = .sig) : PhaseInv s ↔ InRun s ∧ s.dc = 0 := by
  simp [PhaseInv, h]

theorem phaseInv_chunk {s : State} (h : s.phase = .chunk) :
    PhaseInv s ↔ InRun s ∧ s.expansionBounded ∧ 1 ≤ s.cc ∧ s.cc ≤ s.cre := by
  simp [PhaseInv, h]

theorem phaseInv_compressed {s : State} (h : s.phase = .group ∨ s.phase = .token) :
    PhaseInv s ↔ InRun s ∧ s.expansionBounded ∧ InChunk s := by
  rcases h with h | h <;> simp [PhaseInv, h]

theorem phaseInv_done {s : State} (h : s.phase = .done) :
    PhaseInv s ↔ Filled s.outMem s.dc ∧ s.hasRoom 0 ∧ s.expansionBounded ∧ 1 ≤ s.cc ∧ s.cc = s.cre := by
  simp [PhaseInv, h]

/-- At rest the input side is the host's: no part of the invariant but the canonical form speaks of it. -/
theorem phaseInv_setInput {s : State} (hr : s.atRest = true) (m : Memory) (n : Nat) :
    PhaseInv { s with inMem := m, inLen := n } ↔ PhaseInv s := by
  obtain ⟨p, hp⟩ : ∃ p, s.phase = p := ⟨_, rfl⟩
  cases p <;> simp [State.atRest, hp] at hr
  case done =>
    rw [phaseInv_done hp, phaseInv_done (s := { s with inMem := m, inLen := n }) hp]
    rfl
  all_goals simp [PhaseInv, hp]

/-! ### The host's pending acts, of which the invariant does not speak -/

theorem InRun.withHost {s : State} (h : InRun s) (rest : List HostAct) : InRun { s with host := rest } :=
  ⟨h.recordEnd, h.accepted, h.filled, h.room⟩

theorem InChunk.withHost {s : State} (h : InChunk s) (rest : List HostAct) : InChunk { s with host := rest } :=
  ⟨h.first, h.start, h.bound, h.recordEnd, h.size, h.order, h.growth⟩

theorem Inv.withHost {s : State} (h : Inv s) (rest : List HostAct) : Inv { s with host := rest } := by
  refine ⟨h.inCanonical, h.outCanonical, h.bitIndex, h.reason, ?_⟩
  have hph := h.phase
  obtain ⟨p, hp⟩ : ∃ p, s.phase = p := ⟨_, rfl⟩
  cases p
  case idle => simp [PhaseInv, hp]
  case fault => simp [PhaseInv, hp]
  case sig =>
    obtain ⟨hrun, hdc⟩ := (phaseInv_sig hp).1 hph
    exact (phaseInv_sig (by exact hp)).2 ⟨hrun.withHost rest, hdc⟩
  case chunk =>
    obtain ⟨hrun, hrest⟩ := (phaseInv_chunk hp).1 hph
    exact (phaseInv_chunk (by exact hp)).2 ⟨hrun.withHost rest, hrest⟩
  case group =>
    obtain ⟨hrun, hexp, hin⟩ := (phaseInv_compressed (.inl hp)).1 hph
    exact (phaseInv_compressed (.inl (by exact hp))).2 ⟨hrun.withHost rest, hexp, hin.withHost rest⟩
  case token =>
    obtain ⟨hrun, hexp, hin⟩ := (phaseInv_compressed (.inr hp)).1 hph
    exact (phaseInv_compressed (.inr (by exact hp))).2 ⟨hrun.withHost rest, hexp, hin.withHost rest⟩
  case done => exact (phaseInv_done (by exact hp)).2 ((phaseInv_done hp).1 hph)

/-! ### Progress -/

/-- Progress keeps the bounds of a run: what was appended fills OUT up to the new `dc` and had room. -/
theorem InRun.of_progress {s t : State} (h : InRun s) (hp : Progress s t) : InRun t := by
  obtain ⟨n, hap, hdc⟩ := hp.appended
  refine ⟨?_, ?_, ?_, fun c hc => ?_⟩
  · rw [hp.cre, hp.inLen, h.recordEnd]
  · simpa only [State.inLenTooLarge, hp.params, hp.inLen] using h.accepted
  · rw [hdc]
    exact hap.filled h.filled
  · rw [hp.params] at hc
    rcases Nat.eq_zero_or_pos n with rfl | hn
    · exact hdc ▸ h.room c hc
    · exact hdc ▸ hap.room hn.ne' c hc

/-- A step of a run that makes progress keeps the invariant when it keeps `bitIndex` and the phase's own part. -/
theorem Inv.of_progress {s t : State} (h : Inv s) (hp : Progress s t) (hs : s.phase ≠ .fault)
    (ht : t.phase ≠ .fault) (hbi : t.bi ≤ 8) (hph : PhaseInv t) : Inv t := by
  obtain ⟨n, hap, -⟩ := hp.appended
  refine ⟨hp.inMem ▸ h.inCanonical, hap.canonical h.outCanonical, hbi, ?_, hph⟩
  rw [hp.reason, h.reason]
  exact iff_of_false hs ht

/-! ### Raises and the host -/

/-- A free `bitIndex` is one its register can hold (R31). -/
theorem freeBitIndex_le (k : Nat) : Config.freeNat k % 9 ≤ 8 := Nat.le_of_lt_succ (Nat.mod_lt _ (by decide))

theorem Inv.raise {s t : State} (h : Inv s) (hr : Raises s t) : Inv t := by
  obtain ⟨r, info, hr, rfl⟩ := hr
  exact ⟨h.inCanonical, Memory.wf_ofCells _, freeBitIndex_le _, iff_of_true hr rfl, trivial⟩

theorem State.hardReset_inv (s : State) : Inv s.hardReset :=
  ⟨Memory.wf_ofCells _, Memory.wf_ofCells _, freeBitIndex_le _, by simp, trivial⟩

theorem Inv.startRun {s : State} (h : Inv s) (ha : s.inLenTooLarge = false) : Inv s.startRun :=
  ⟨h.inCanonical, rfl, freeBitIndex_le _, by simp,
    (phaseInv_sig rfl).2 ⟨⟨rfl, ha, rfl, fun c _ => Nat.zero_le c⟩, rfl⟩⟩

theorem Inv.setInput {s : State} (h : Inv s) (hr : s.atRest = true) {m : Memory} (hm : m.wf = true) (n : Nat) :
    Inv { s with inMem := m, inLen := n } :=
  ⟨hm, h.outCanonical, h.bitIndex, h.reason, (phaseInv_setInput hr m n).2 h.phase⟩

theorem Inv.hostEffect {a : HostAct} {s t : State} (h : Inv s) (ht : hostEffect a s = .taken t) : Inv t := by
  rcases hostEffect_cases a s with ⟨he, -⟩ | ⟨x, b, -, hr, he⟩ | ⟨_, _, -, -, he⟩ | ⟨n, -, hr, he⟩ |
    ⟨-, -, ha, he⟩ | ⟨-, -, -, he⟩ | ⟨-, he⟩ <;> cases he.symm.trans ht
  · exact h.setInput hr (Memory.wf_write h.inCanonical x b) s.inLen
  · exact h.setInput hr h.inCanonical n
  · exact h.startRun ha
  · exact s.hardReset_inv

/-! ### The moves of the sequencer -/

/-- A compressed chunk starts past the signature (R161). -/
theorem InChunk.one_le_cc {s : State} (h : InChunk s) : 1 ≤ s.cc :=
  h.first.trans ((Nat.le_add_right _ _).trans h.start)

theorem InChunk.enterPhase {s : State} (h : InChunk s) (p : Phase) : InChunk (s.enterPhase p) :=
  ⟨h.first, h.start, h.bound, h.recordEnd, h.size, h.order, h.growth⟩

theorem Inv.enterPhase {s : State} {p : Phase} (h : Inv s) (hc : choose s = .moveTo p) : Inv (s.enterPhase p) := by
  have hprog := s.enterPhase_progress p
  rcases choose_moveTo hc with ⟨hp, hend, rfl⟩ | ⟨hp, hend, rfl⟩ | ⟨hp, -, rfl⟩
  · obtain ⟨hrun, hexp, hpos, hle⟩ := (phaseInv_chunk hp).1 h.phase
    exact h.of_progress hprog (by simp [hp]) (by simp) h.bitIndex
      ((phaseInv_done rfl).2 ⟨hrun.filled, hrun.room, hexp, hpos, le_antisymm hle hend⟩)
  · obtain ⟨hrun, hexp, hin⟩ := (phaseInv_compressed (.inl hp)).1 h.phase
    exact h.of_progress hprog (by simp [hp]) (by simp) h.bitIndex
      ((phaseInv_chunk rfl).2 ⟨hrun.of_progress hprog, hexp, hin.one_le_cc, hin.bound.trans hin.recordEnd⟩)
  · obtain ⟨hrun, hexp, hin⟩ := (phaseInv_compressed (.inr hp)).1 h.phase
    exact h.of_progress hprog (by simp [hp]) (by simp) h.bitIndex
      ((phaseInv_compressed (.inl rfl)).2 ⟨hrun.of_progress hprog, hexp, hin.enterPhase _⟩)

/-! ### The length of a copy (R124) -/

/-- A wider split leaves a shorter length field. -/
theorem unpackLength_le_of_le (t : Half) {k n : Nat} (h : k ≤ n) :
    unpackLength t (helpDataAt n) ≤ 65535 / 2 ^ k + 3 := by
  have hlen := (unpackLength_bounds t (helpDataAt n)).2
  rw [lengthMask_toNat, Nat.shiftRight_eq_div_pow] at hlen
  have hdiv : 65535 / 2 ^ n ≤ 65535 / 2 ^ k :=
    Nat.div_le_div_left (Nat.pow_le_pow_right (by decide) h) (Nat.two_pow_pos k)
  omega

/-- A copy makes at most 4098 bytes. -/
theorem unpackLength_le {d : Nat} {hd : HelpData} (t : Half) (h : computeHelpData d = some hd) :
    unpackLength t hd ≤ 4098 := by
  have hd0 : d ≠ 0 := fun h0 => by simp [h0, computeHelpData_zero] at h
  cases (computeHelpData_pos hd0).symm.trans h
  exact unpackLength_le_of_le t (le_max_left 4 (clog2 d))

/-- The step of R124: a copy makes at most 10 bytes once `difference` is above 4096, and before that it does not take
`difference` past 6146. -/
theorem unpackLength_growth {d : Nat} {hd : HelpData} (t : Half) (h : computeHelpData d = some hd) :
    unpackLength t hd ≤ 10 ∨ d + unpackLength t hd ≤ 6146 := by
  have hlen := unpackLength_le t h
  have hd0 : d ≠ 0 := fun h0 => by simp [h0, computeHelpData_zero] at h
  cases (computeHelpData_pos hd0).symm.trans h
  have hsplit : ∀ k, ¬ d ≤ 2 ^ k → k + 1 ≤ max 4 (clog2 d) := fun k hk => by
    rw [← clog2_le_iff] at hk
    omega
  rcases Nat.lt_or_ge 4096 d with hbig | hbig
  · exact .inl (unpackLength_le_of_le t (hsplit 12 (by omega)))
  rcases Nat.lt_or_ge 2048 d with hmid | hmid
  · have h18 : _ ≤ 18 := unpackLength_le_of_le t (hsplit 11 (by omega))
    exact .inr (by omega)
  · exact .inr (by omega)

/-! ### The elements -/

/-- The phase in which the sequencer takes an element of a context, with a slot left for a token (R80, R184). -/
def State.takes (s : State) : Context → Prop
  | .signature => s.phase = .sig
  | .chunk => s.phase = .chunk
  | .group => s.phase = .group
  | .literal | .copy _ => s.phase = .token ∧ s.bi < 8

theorem choose_take_takes {s : State} {c : Context} {a limit : Nat} (h : choose s = .take c a limit) : s.takes c := by
  rcases choose_take h with ⟨hp, rfl, -⟩ | ⟨hp, -, rfl, -⟩ | ⟨hp, -, rfl, -⟩ | ⟨hp, hbi, -, -, rfl, -⟩ |
    ⟨hp, hbi, -, -, -, -, -, rfl⟩
  · exact hp
  · exact hp
  · exact hp
  · exact ⟨hp, hbi⟩
  · exact ⟨hp, hbi⟩

/-- The step of R240: `n` more output bytes for `k` more input bytes. -/
theorem State.expansionBounded.add {s : State} {k n : Nat} (h : s.expansionBounded) (hpos : 1 ≤ s.cc)
    (hn : n ≤ 2049 * k) : s.dc + n ≤ 2049 * (s.cc + k - 1) := by
  unfold State.expansionBounded at h
  omega

/-- The step of R124: an element makes at most 5 bytes for each byte it takes, or it stays within the 6146 bytes of the
chunk's first splits. -/
theorem InChunk.growth_add {s : State} {k n : Nat} (h : InChunk s)
    (hn : n ≤ 5 * k ∨ s.difference + n ≤ 6146) :
    s.dc + n - s.dcs ≤ 6146 + 5 * (s.cc + k - (s.ccs + 2)) := by
  obtain ⟨-, hstart, -, -, -, horder, hgrowth⟩ := h
  unfold State.difference at hn
  omega

theorem Inv.passSignature {s : State} (h : Inv s) (hp : s.phase = .sig) (hne : s.cre ≠ 0) : Inv s.passSignature := by
  have hprog := (Completes.signature hne).progress
  obtain ⟨hrun, hdc⟩ := (phaseInv_sig hp).1 h.phase
  have hexp : s.dc ≤ 2049 * (1 - 1) := hdc.le
  exact h.of_progress hprog (by simp [hp]) (by simp) h.bitIndex
    ((phaseInv_chunk rfl).2 ⟨hrun.of_progress hprog, hexp, le_rfl, Nat.one_le_iff_ne_zero.2 hne⟩)

/-- Right after its header a compressed chunk has made no byte. -/
theorem inChunk_openChunk {s : State} {size : Nat} (hpos : 1 ≤ s.cc) (hmin : 3 ≤ size) (hmax : size ≤ 4098)
    (hb : s.cc + 2 ≤ s.cre) : InChunk (s.openChunk size) where
  first := hpos
  start := le_rfl
  bound := le_min hb (Nat.add_le_add_left (by omega) _)
  recordEnd := min_le_left _ _
  size := (min_le_right _ _).trans (Nat.add_le_add_left hmax _)
  order := le_rfl
  growth := by simp

theorem Inv.compressed {s : State} {size : Nat} (h : Inv s) (hp : s.phase = .chunk) (hmin : 3 ≤ size)
    (hmax : size ≤ 4098) (hb : s.cc + 2 ≤ s.cre) : Inv ((s.openChunk size).enterPhase .group) := by
  have hprog := (Completes.compressed hmin hmax hb).progress
  obtain ⟨hrun, hexp, hpos, -⟩ := (phaseInv_chunk hp).1 h.phase
  exact h.of_progress hprog (by simp [hp]) (by simp) h.bitIndex
    ((phaseInv_compressed (.inl rfl)).2 ⟨hrun.of_progress hprog, hexp.add (n := 0) hpos (by decide),
      (inChunk_openChunk hpos hmin hmax hb).enterPhase _⟩)

theorem Inv.raw {s : State} {size : Nat} {out : Memory} (h : Inv s) (hp : s.phase = .chunk)
    (hb : s.cc + 4098 ≤ s.cre) (hap : Appended s.params.outCapacity 4096 s.dc s.outMem out) :
    Inv ((s.openChunk size).tookPayload out) := by
  have hprog := (Completes.raw (size := size) hb hap).progress
  obtain ⟨hrun, hexp, hpos, -⟩ := (phaseInv_chunk hp).1 h.phase
  exact h.of_progress hprog (by simp [hp]) (by simp) h.bitIndex
    ((phaseInv_chunk rfl).2 ⟨hrun.of_progress hprog, hexp.add (k := 4098) hpos (by decide),
      hpos.trans (Nat.le_add_right _ 4098), hb⟩)

theorem Inv.takeFlag {s : State} (h : Inv s) (hp : s.phase = .group) (hb : s.cc + 1 ≤ s.ce) (f : Byte) :
    Inv (s.takeFlag f) := by
  have hprog := (Completes.flag (s := s) f).progress
  obtain ⟨hrun, hexp, hin⟩ := (phaseInv_compressed (.inl hp)).1 h.phase
  have hin' : InChunk (s.takeFlag f) :=
    ⟨hin.first, hin.start.trans (Nat.le_add_right _ _), hb, hin.recordEnd, hin.size, hin.order,
      hin.growth_add (n := 0) (.inl (by decide))⟩
  exact h.of_progress hprog (by simp [hp]) (by simp) (Nat.zero_le _)
    ((phaseInv_compressed (.inr rfl)).2 ⟨hrun.of_progress hprog, hexp.add (n := 0) hin.one_le_cc (by decide), hin'⟩)

/-- A token that takes `k` input bytes and makes `n` output bytes keeps the invariant when it lies in the chunk and `n` is
within the bounds of R240 and R124. -/
theorem Inv.tookToken {s : State} {k n : Nat} {out : Memory} (h : Inv s) (hp : s.phase = .token) (hbi : s.bi < 8)
    (hb : s.cc + k ≤ s.ce) (hprog : Progress s (s.tookToken k n out)) (hexpand : n ≤ 2049 * k)
    (hgrow : n ≤ 5 * k ∨ s.difference + n ≤ 6146) : Inv (s.tookToken k n out) := by
  obtain ⟨hrun, hexp, hin⟩ := (phaseInv_compressed (.inr hp)).1 h.phase
  have hin' : InChunk (s.tookToken k n out) :=
    ⟨hin.first, hin.start.trans (Nat.le_add_right _ _), hb, hin.recordEnd, hin.size,
      hin.order.trans (Nat.le_add_right _ _), hin.growth_add hgrow⟩
  exact h.of_progress hprog (by simp [hp]) (by simp [hp]) hbi
    ((phaseInv_compressed (.inr (by exact hp))).2
      ⟨hrun.of_progress hprog, hexp.add hin.one_le_cc hexpand, hin'⟩)

/-- A completed element that the sequencer has taken, its bytes below the limit of R52, keeps the invariant. -/
theorem Inv.completes {s t : State} {c : Context} {a limit : Nat} (h : Inv s) (hc : choose s = .take c a limit)
    (hb : a + c.width ≤ limit) (hcomp : Completes s c t) : Inv t := by
  have hprog := hcomp.progress
  have htakes := choose_take_takes hc
  cases hcomp with
  | signature hne => exact h.passSignature htakes hne
  | compressed hmin hmax hb' => exact h.compressed htakes hmin hmax hb'
  | raw hb' hap => exact h.raw htakes hb' hap
  | flag f => exact h.takeFlag htakes (choose_take_one_byte hc hb (.inl rfl)) f
  | literal _ =>
    obtain ⟨hp, hbi⟩ := htakes
    exact h.tookToken hp hbi (choose_take_one_byte hc hb (.inr rfl)) hprog (by decide) (.inl (by decide))
  | copy hb' hhd _ =>
    obtain ⟨hp, hbi⟩ := htakes
    exact h.tookToken hp hbi hb' hprog (unpackLength_le _ hhd) (unpackLength_growth _ hhd)

/-! ### The step -/

theorem Inv.advance {s t : State} (h : Inv s) (ht : advance s = .next t) : Inv t := by
  rcases advance_next ht with hr | ⟨-, rfl⟩ | ⟨p, hc, rfl⟩ | ⟨c, a, limit, hc, hb, hcomp⟩
  · exact h.raise hr
  · exact h
  · exact h.enterPhase hc
  · exact h.completes hc hb hcomp

/-- Settles O34: after power-on the machine is at rest, its buffers are empty and no reason is named. -/
theorem resetSatisfiesTheInvariant : Obligations.ResetSatisfiesTheInvariant :=
  ⟨rfl, rfl, Nat.zero_le _, by decide, trivial⟩

/-- Settles O35, by the two sources of a next state: the hardware's own step and an act of the host. -/
theorem stepKeepsTheInvariant : Obligations.StepKeepsTheInvariant := by
  intro s t h ht
  rcases step_next ht with ⟨rest, hadv⟩ | ⟨a, rest, -, hu⟩
  · exact (h.withHost rest).advance hadv
  · exact (h.withHost rest).hostEffect hu

end Sys2Proof.Machine
end

section
/-! The read cursor from the signature on (10_state.md rule R25). -/

namespace Sys2Proof.Machine

open Sys2Proof

/-- The phases in which `cc` is a position of the record: after the signature, faults excepted (R25, R35). -/
def State.inRecord (s : State) : Prop :=
  s.phase = .chunk ∨ s.phase = .group ∨ s.phase = .token ∨ s.phase = .done

theorem State.inRecord_of_running {s : State} (hrun : s.running = true) (hsig : s.phase ≠ .sig) : s.inRecord := by
  unfold State.running State.atRest at hrun
  unfold State.inRecord
  cases hp : s.phase <;> simp_all

/-- Where `cc` is a position of the record, the invariant keeps it at or below the end. -/
theorem Inv.cc_le_cre {s : State} (h : Inv s) (hr : s.inRecord) : s.cc ≤ s.cre := by
  rcases hr with hp | hp | hp | hp
  · obtain ⟨-, -, -, hle⟩ := (phaseInv_chunk hp).1 h.phase
    exact hle
  · obtain ⟨-, -, hin⟩ := (phaseInv_compressed (.inl hp)).1 h.phase
    exact hin.bound.trans hin.recordEnd
  · obtain ⟨-, -, hin⟩ := (phaseInv_compressed (.inr hp)).1 h.phase
    exact hin.bound.trans hin.recordEnd
  · obtain ⟨-, -, -, -, heq⟩ := (phaseInv_done hp).1 h.phase
    exact heq.le

/-- An element other than the signature does not lower `cc` and leaves it a position of the record. -/
theorem Completes.cc_le {s t : State} {c : Context} (h : Completes s c t) (hc : c ≠ .signature)
    (hr : s.inRecord) : s.cc ≤ t.cc ∧ t.inRecord := by
  cases h with
  | signature _ => exact absurd rfl hc
  | compressed _ _ _ => exact ⟨by simp, .inr (.inl rfl)⟩
  | raw _ _ => exact ⟨by simp; omega, .inl rfl⟩
  | flag f => exact ⟨by simp, .inr (.inr (.inl rfl))⟩
  | literal _ => exact ⟨by simp, hr⟩
  | copy _ _ _ => exact ⟨by simp, hr⟩

theorem choose_moveTo_inRecord {s : State} {p : Phase} (h : choose s = .moveTo p) :
    (s.enterPhase p).inRecord := by
  rcases choose_moveTo h with ⟨-, -, rfl⟩ | ⟨-, -, rfl⟩ | ⟨-, -, rfl⟩
  · exact .inr (.inr (.inr rfl))
  · exact .inl rfl
  · exact .inr (.inl rfl)

theorem advance_cc_le {s t : State} (hr : s.inRecord) (h : advance s = .next t) (ht : t.phase ≠ .fault) :
    s.cc ≤ t.cc ∧ t.inRecord := by
  rcases advance_next h with ⟨r, info, -, rfl⟩ | ⟨-, rfl⟩ | ⟨p, hc, rfl⟩ | ⟨c, a, limit, hc, -, hcomp⟩
  · exact absurd rfl ht
  · exact ⟨le_rfl, hr⟩
  · exact ⟨le_rfl, choose_moveTo_inRecord hc⟩
  · refine hcomp.cc_le (fun hsig => ?_) hr
    subst hsig
    have hp : s.phase = .sig := choose_take_takes hc
    simp [State.inRecord, hp] at hr

/-- Settles O43: no step past the signature lowers `cc`, and the invariant of the next state bounds it. -/
theorem readCursorNeverDecreases : Obligations.ReadCursorNeverDecreases := by
  intro s t hinv hrun hsig hreset h ht
  obtain ⟨rest, hadv⟩ := step_next_of_running hrun hreset h
  obtain ⟨hle, hrec⟩ := advance_cc_le (s := { s with host := rest }) (State.inRecord_of_running hrun hsig) hadv ht
  exact ⟨hle, (stepKeepsTheInvariant s t hinv h).cc_le_cre hrec⟩

end Sys2Proof.Machine
end

section
/-! The memory rules at the step (20_memory.md): every step keeps both buffers canonical (R50), an element that its
limit cuts off is not read (R52), and a run whose input is placed meets none of the model's own stops (R55, R124, R145). -/

namespace Sys2Proof.Machine

open Sys2Proof

/-! ### The canonical form -/

theorem advance_buffers_wf {s t : State} (hin : s.inMem.wf = true) (hout : s.outMem.wf = true)
    (h : advance s = .next t) : t.inMem.wf = true ∧ t.outMem.wf = true := by
  rcases advance_raises_or_progress h with ⟨r, info, -, rfl⟩ | hp
  · exact ⟨hin, Memory.wf_ofCells _⟩
  · obtain ⟨n, hap, -⟩ := hp.appended
    exact ⟨hp.inMem ▸ hin, hap.canonical hout⟩

theorem hostEffect_buffers_wf {a : HostAct} {s t : State} (hin : s.inMem.wf = true) (hout : s.outMem.wf = true)
    (h : hostEffect a s = .taken t) : t.inMem.wf = true ∧ t.outMem.wf = true := by
  rcases hostEffect_cases a s with ⟨he, -⟩ | ⟨x, b, -, -, he⟩ | ⟨_, _, -, -, he⟩ | ⟨_, -, -, he⟩ |
    ⟨-, -, -, he⟩ | ⟨-, -, -, he⟩ | ⟨-, he⟩ <;> cases he.symm.trans h
  · exact ⟨Memory.wf_write hin x b, hout⟩
  · exact ⟨hin, hout⟩
  · exact ⟨hin, rfl⟩
  · exact ⟨Memory.wf_ofCells _, Memory.wf_ofCells _⟩

/-- Settles O36, by the two sources of a next state: the hardware's own step and an act of the host. -/
theorem stepKeepsBuffersCanonical : Obligations.StepKeepsBuffersCanonical := by
  intro s t hin hout h
  rcases step_next h with ⟨rest, hadv⟩ | ⟨a, rest, -, hu⟩
  · exact advance_buffers_wf (s := { s with host := rest }) hin hout hadv
  · exact hostEffect_buffers_wf (s := { s with host := rest }) hin hout hu

/-! ### Elements cut off by their limit -/

theorem step_of_no_act {s : State} (h : s.host = []) : step s = advance s := by
  simp only [step, h]

theorem State.faulted_raise (s : State) (r : FaultReason) (info : FaultInfo) :
    Faulted s r info (s.raise r info) :=
  ⟨rfl, rfl, rfl, rfl, rfl, rfl, rfl⟩

/-- R52: an element that reaches past its limit is not read. -/
theorem advance_of_take_cut_off {s : State} {c : Context} {a limit : Nat} (hc : choose s = .take c a limit)
    (hb : limit < a + c.width) : advance s = .next (s.raise .outOfBounds ⟨.inputRead, limit⟩) := by
  simp only [advance, fetch, hc, fetchElement, if_pos hb]

/-- At a position without a split the bound is still tested first (R144, R209). -/
theorem advance_of_takeUndefined_cut_off {s : State} (hc : choose s = .takeUndefined) (hb : s.ce < s.cc + 2) :
    advance s = .next (s.raise .outOfBounds ⟨.inputRead, s.ce⟩) := by
  simp only [advance, fetch, hc, if_pos hb]

theorem choose_sig {s : State} (hp : s.phase = .sig) : choose s = .take .signature 0 s.cre := by
  simp only [choose, hp]

theorem choose_chunk {s : State} (hp : s.phase = .chunk) (hlt : s.cc < s.cre) :
    choose s = .take .chunk s.cc s.cre := by
  simp only [choose, hp, if_neg (Nat.not_le.2 hlt)]

/-- A set slot bit asks for a copy token, whether its position has a split or not (R184, R125). -/
theorem choose_copy {s : State} (hp : s.phase = .token) (hbi : s.bi < 8) (hlt : s.cc < s.ce)
    (hf : flagBit s.fb s.bi = true) :
    (∃ n, choose s = .take (.copy n) s.cc s.ce) ∨ choose s = .takeUndefined := by
  have hslot : ¬ (8 ≤ s.bi ∨ s.ce ≤ s.cc) := by omega
  simp only [choose, hp, if_neg hslot, if_pos hf]
  cases computeHelpData s.difference with
  | some hd => exact .inl ⟨hd.bitCount, rfl⟩
  | none => exact .inr rfl

/-- Settles O19: each of the three is an element one byte longer than its limit allows, so the fetch raises. -/
theorem cutOffElementsFault : Obligations.CutOffElementsFault := by
  intro s hh
  simp only [step_of_no_act hh]
  refine ⟨fun hp hcre => ?_, fun hp hcc => ?_, fun hp hbi hcc hf => ?_⟩
  · have hadv := advance_of_take_cut_off (choose_sig hp) (by simp [Context.width, hcre])
    rw [hcre] at hadv
    exact ⟨_, hadv, s.faulted_raise _ _⟩
  · have hb : s.cre < s.cc + Context.chunk.width := by simp only [Context.width]; omega
    exact ⟨_, advance_of_take_cut_off (choose_chunk hp (by omega)) hb, s.faulted_raise _ _⟩
  · have hb : s.ce < s.cc + 2 := by omega
    rcases choose_copy hp hbi (by omega) hf with ⟨n, hc⟩ | hc
    · exact ⟨_, advance_of_take_cut_off hc hb, s.faulted_raise _ _⟩
    · exact ⟨_, advance_of_takeUndefined_cut_off hc hb, s.faulted_raise _ _⟩

/-! ### Elements whose bytes are placed -/

/-- What is placed from 0 up to an end is placed at every stretch below it. -/
theorem State.placed.within {s : State} {a n limit : Nat} (h : s.placed 0 limit) (hle : a + n ≤ limit) :
    s.placed a n := fun i hi => by
  have := h (a + i) (by omega)
  rwa [Nat.zero_add] at this

theorem execSig_advances (b : Byte) (s : State) : ∃ t, execSig b s = .next t := by
  unfold execSig
  split
  · exact ⟨_, rfl⟩
  · split <;> exact ⟨_, rfl⟩

theorem execLit_advances (b : Byte) (s : State) : ∃ t, execLit b s = .next t := by
  unfold execLit
  split <;> exact ⟨_, rfl⟩

theorem rawPayload_advances {s : State} (hm : s.inMem.wf = true) (hpl : s.placed 0 s.cre) :
    ∃ t, rawPayload s = .next t := by
  rcases rawPayload_cases s hm with ⟨-, he⟩ | ⟨hb, ⟨-, i, hi, hnone⟩ | ⟨_, he, -⟩ | ⟨_, he, -⟩⟩
  · exact ⟨_, he⟩
  · have hsome := hpl.within hb i hi
    simp [hnone] at hsome
  · exact ⟨_, he⟩
  · exact ⟨_, he⟩

theorem chunkStart_advances {hdr : Half} {rest : State → Host.Outcome State Fault Refusal} {s : State}
    (hrest : ∀ n, ∃ t, rest (s.openChunk n) = .next t) : ∃ t, chunkStart hdr rest s = .next t := by
  rcases chunkStart_cases hdr rest s with ⟨-, he⟩ | ⟨-, he⟩ <;> rw [he]
  · exact ⟨_, rfl⟩
  · exact hrest _

/-- A `difference` that 15 bits cover has a split with a row in the table (R87, R124). -/
theorem bitCount_le_fifteen {d : Nat} {hd : HelpData} (hle : d ≤ 2 ^ 15) (h : computeHelpData d = some hd) :
    hd.bitCount ≤ 15 := by
  have hd0 : d ≠ 0 := fun h0 => by simp [h0, computeHelpData_zero] at h
  cases (computeHelpData_pos hd0).symm.trans h
  exact max_le (by decide) ((clog2_le_iff d 15).2 hle)

/-- R145: where OUT holds its first `dc` bytes no source byte of a copy is missing. -/
theorem copyToken_advances {s : State} (token : Half) (hfill : Filled s.outMem s.dc)
    (hdiff : s.difference ≤ 2 ^ 15) : ∃ t, copyToken token s = .next t := by
  rcases copyToken_cases token s with
    ⟨-, he⟩ | ⟨-, ⟨-, he⟩ | ⟨hd, hhd, ⟨h15, -⟩ | ⟨-, -, he⟩ |
      ⟨-, -, ⟨_, he, -⟩ | ⟨_, he, -⟩ | ⟨-, hnot, -⟩⟩⟩⟩
  · exact ⟨_, he⟩
  · exact ⟨_, he⟩
  · exact absurd (bitCount_le_fifteen hdiff hhd) (Nat.not_le.2 h15)
  · exact ⟨_, he⟩
  · exact ⟨_, he⟩
  · exact ⟨_, he⟩
  · exact absurd hfill hnot

/-- Every element answers a next state when the input is placed, OUT is filled and, for a copy, 15 bits cover
`difference`. -/
theorem exec_advances {i : Instr} {s : State} (hm : s.inMem.wf = true) (hpl : s.placed 0 s.cre)
    (hfill : Filled s.outMem s.dc) (hcopy : ∀ n, i.context = .copy n → s.difference ≤ 2 ^ 15) :
    ∃ t, exec i s = .next t := by
  rcases exec_kinds i with ⟨b, -, he⟩ | ⟨x, sz, -, he⟩ | ⟨x, sz, -, he⟩ | ⟨f, -, he⟩ | ⟨b, -, he⟩ |
    ⟨n, _, _, token, hf, -, he⟩ <;> rw [he]
  · exact execSig_advances b s
  · exact chunkStart_advances fun n => rawPayload_advances (s := s.openChunk n) hm hpl
  · exact chunkStart_advances fun n => ⟨_, rfl⟩
  · exact ⟨_, rfl⟩
  · exact execLit_advances b s
  · exact copyToken_advances token hfill (hcopy n (context_of_copyFields hf))

/-! ### A run whose input is placed -/

/-- R124: the chunk's payload is at most 4096 bytes, so the bound `growth` is at most 26626. -/
theorem InChunk.difference_le {s : State} (h : InChunk s) : s.difference ≤ 26626 := by
  obtain ⟨-, hstart, hbound, -, hsize, -, hgrowth⟩ := h
  unfold State.difference
  omega

theorem Inv.difference_le {s : State} (h : Inv s) (hp : s.phase = .token) : s.difference ≤ 26626 := by
  obtain ⟨-, -, hin⟩ := (phaseInv_compressed (.inr hp)).1 h.phase
  exact hin.difference_le

theorem Inv.inRun {s : State} (h : Inv s) (hrun : s.running = true) : InRun s := by
  have hph := h.phase
  cases hp : s.phase
  case sig => exact ((phaseInv_sig hp).1 hph).1
  case chunk => exact ((phaseInv_chunk hp).1 hph).1
  case group => exact ((phaseInv_compressed (.inl hp)).1 hph).1
  case token => exact ((phaseInv_compressed (.inr hp)).1 hph).1
  all_goals simp [State.running, State.atRest, hp] at hrun

/-- Every limit of a fetch lies in the record (R24, R161). -/
theorem Inv.limit_le_cre {s : State} {c : Context} {a limit : Nat} (h : Inv s)
    (hc : choose s = .take c a limit) : limit ≤ s.cre := by
  have hchunk : s.phase = .group ∨ s.phase = .token → s.ce ≤ s.cre := fun hp => by
    obtain ⟨-, -, hin⟩ := (phaseInv_compressed hp).1 h.phase
    exact hin.recordEnd
  rcases choose_take hc with ⟨-, -, -, rfl⟩ | ⟨-, -, -, -, rfl⟩ | ⟨hp, -, -, -, rfl⟩ |
    ⟨hp, -, -, -, -, -, rfl⟩ | ⟨hp, -, -, -, -, rfl, -⟩
  · exact le_rfl
  · exact le_rfl
  · exact hchunk (.inl hp)
  · exact hchunk (.inr hp)
  · exact hchunk (.inr hp)

/-- R124: the split of a copy token the sequencer takes has a row in the table. -/
theorem Inv.split_in_table {s : State} {n a limit : Nat} (h : Inv s)
    (hc : choose s = .take (.copy n) a limit) : 4 ≤ n ∧ n ≤ 15 := by
  obtain ⟨hp, -⟩ : s.phase = .token ∧ s.bi < 8 := choose_take_takes hc
  have hdiff := h.difference_le hp
  rcases choose_take hc with ⟨-, h1, -⟩ | ⟨-, -, h1, -⟩ | ⟨-, -, h1, -⟩ | ⟨-, -, -, -, h1, -⟩ |
    ⟨-, -, -, -, -, -, -, h1⟩ <;> cases h1
  exact ⟨le_max_left _ _, max_le (by decide) ((clog2_le_iff _ 15).2 (by omega))⟩

/-- Settles O39: below its limit an element's bytes are placed, its split has a row, and the invariant rules out the
stops of its meaning. -/
theorem placedRunAlwaysAdvances : Obligations.PlacedRunAlwaysAdvances := by
  intro s hinv hrun hh hpl
  rw [step_of_no_act hh]
  rcases advance_cases s with ⟨-, he⟩ | ⟨p, -, he⟩ |
    ⟨c, a, limit, hc, ⟨-, he⟩ | ⟨hb, ⟨hnone, -⟩ | ⟨bs, i, rest, -, hdec, he⟩ | ⟨n, rfl, hn, -⟩⟩⟩ |
    ⟨-, ⟨-, he⟩ | ⟨-, he⟩⟩
  · exact ⟨_, he⟩
  · exact ⟨_, he⟩
  · exact ⟨_, he⟩
  · have hbytes := hpl.within (hb.trans (hinv.limit_le_cre hc))
    obtain ⟨bs, hsome⟩ := Memory.readBytes_of_placed hinv.inCanonical hbytes
    cases hnone.symm.trans hsome
  · rw [he]
    refine exec_advances hinv.inCanonical hpl (hinv.inRun hrun).filled fun n hi => ?_
    obtain rfl : c = .copy n := (decode_context hdec).symm.trans hi
    obtain ⟨hp, -⟩ : s.phase = .token ∧ s.bi < 8 := choose_take_takes hc
    exact (hinv.difference_le hp).trans (by decide)
  · have hrow := hinv.split_in_table hc
    omega
  · exact ⟨_, he⟩
  · exact ⟨_, he⟩

end Sys2Proof.Machine
end

section
/-! The encoding (30_encoding.md): the 16-bit values of the formats H and T and the two bytes that carry one, and the
decoder against the encoder in both directions (R80 to R87). -/

namespace Sys2Proof

/-! ### Two bytes and their 16-bit value (R56) -/

theorem littleEndianBytes_littleEndian (lo hi : Byte) : littleEndianBytes (littleEndian lo hi) = [lo, hi] :=
  congrArg₂ (fun a b => [a, b]) BitVec.extractLsb'_append_eq_right BitVec.extractLsb'_append_eq_left

theorem littleEndian_extractLsb' (h : Half) : littleEndian (h.extractLsb' 0 8) (h.extractLsb' 8 8) = h :=
  BitVec.extractLsb'_append_extractLsb' (w := 8) (len := 8)

theorem decode_chunk_littleEndianBytes (h : Half) (rest : List Byte) :
    decode .chunk (littleEndianBytes h ++ rest) = .ok (decodeHeader h, rest) := by
  simp only [littleEndianBytes, List.cons_append, List.nil_append, decode, littleEndian_extractLsb']

theorem decode_copy_littleEndianBytes {n : Nat} {t : Half} {i : Instr} (h : decodeToken n t = some i)
    (rest : List Byte) : decode (.copy n) (littleEndianBytes t ++ rest) = .ok (i, rest) := by
  simp only [littleEndianBytes, List.cons_append, List.nil_append, decode, littleEndian_extractLsb', h]

/-! ### Format H (R83) -/

theorem headerWord_getLsbD (c : BitVec 1) (x : BitVec 3) (sz : BitVec 12) :
    (headerWord c x sz).getLsbD 15 = c.getLsbD 0 :=
  BitVec.getLsbD_append.trans (if_neg (by decide))

theorem headerWord_extractLsb'_x (c : BitVec 1) (x : BitVec 3) (sz : BitVec 12) :
    (headerWord c x sz).extractLsb' 12 3 = x :=
  (BitVec.extractLsb'_append_eq_of_add_le (by decide)).trans BitVec.extractLsb'_append_eq_left

theorem headerWord_extractLsb'_sz (c : BitVec 1) (x : BitVec 3) (sz : BitVec 12) :
    (headerWord c x sz).extractLsb' 0 12 = sz :=
  (BitVec.extractLsb'_append_eq_of_add_le (by decide)).trans BitVec.extractLsb'_append_eq_right

theorem decodeHeader_headerWord (c : BitVec 1) (x : BitVec 3) (sz : BitVec 12) :
    decodeHeader (headerWord c x sz) = if c.getLsbD 0 then .hdrCmp x sz else .hdrRaw x sz := by
  simp only [decodeHeader, headerWord_getLsbD, headerWord_extractLsb'_x, headerWord_extractLsb'_sz]

/-- The three fields of a header make up all its 16 bits. -/
theorem headerWord_of_fields (h : Half) :
    headerWord (BitVec.ofBool (h.getLsbD 15)) (h.extractLsb' 12 3) (h.extractLsb' 0 12) = h := by
  have hlow : h.extractLsb' 12 3 ++ h.extractLsb' 0 12 = h.extractLsb' 0 15 :=
    BitVec.extractLsb'_append_extractLsb'_eq_extractLsb' rfl
  have htop : BitVec.ofBool (h.getLsbD 15) = h.extractLsb' 15 1 := by
    ext j hj
    obtain rfl : j = 0 := by omega
    simp
  rw [headerWord, hlow, htop]
  exact BitVec.extractLsb'_append_extractLsb' (w := 1) (len := 15)

theorem encode_decodeHeader (h : Half) : encode (decodeHeader h) = littleEndianBytes h := by
  have hw := headerWord_of_fields h
  unfold decodeHeader
  split <;> rename_i hbit
  · rw [hbit] at hw
    exact congrArg littleEndianBytes hw
  · rw [Bool.eq_false_of_not_eq_true hbit] at hw
    exact congrArg littleEndianBytes hw

/-! ### Format T (R86, R87) -/

/-- The encoding of a COPY row is a token that its split reads back as the row. -/
theorem encode_copy {i : Instr} {n : Nat} (h : i.context = .copy n) :
    ∃ t, encode i = littleEndianBytes t ∧ decodeToken n t = some i := by
  cases i <;> cases h
  all_goals
    refine ⟨_, rfl, ?_⟩
    unfold decodeToken
    rw [BitVec.extractLsb'_append_eq_left, BitVec.extractLsb'_append_eq_right]
    rfl

theorem decode_encode_copy {i : Instr} {n : Nat} (h : i.context = .copy n) (rest : List Byte) :
    decode i.context (encode i ++ rest) = .ok (i, rest) := by
  obtain ⟨t, he, ht⟩ := encode_copy h
  rw [h, he]
  exact decode_copy_littleEndianBytes ht rest

/-- The offset field and the length field of a row make up all 16 bits of the token. -/
theorem encode_of_decodeToken {n : Nat} {t : Half} {i : Instr} (h : decodeToken n t = some i) :
    encode i = littleEndianBytes t := by
  unfold decodeToken at h
  split at h <;> cases h <;>
    exact congrArg littleEndianBytes
      ((BitVec.extractLsb'_append_extractLsb'_eq_extractLsb' rfl).trans BitVec.extractLsb'_eq_self)

/-! ### The decoder against the encoder -/

/-- Settles O1, by the format of each row: a byte is its own element, a header and a token are two bytes that give their
16-bit value back. -/
theorem decodeUndoesEncode : Obligations.DecodeUndoesEncode := by
  intro i rest
  cases i
  case sig b => rfl
  case flag f => rfl
  case lit b => rfl
  case hdrRaw | hdrCmp =>
    rw [encode, Instr.context, decode_chunk_littleEndianBytes, decodeHeader_headerWord]
    rfl
  all_goals exact decode_encode_copy rfl rest

theorem eq_encode_append_of_decode {c : Context} {bs rest : List Byte} {i : Instr} (h : decode c bs = .ok (i, rest)) :
    bs = encode i ++ rest := by
  unfold decode at h
  split at h
  case h_1 | h_2 | h_3 =>
    cases h
    rfl
  case h_4 lo hi _ =>
    cases h
    rw [encode_decodeHeader, littleEndianBytes_littleEndian]
    rfl
  case h_5 n lo hi _ =>
    split at h
    · rename_i hj
      cases h
      rw [encode_of_decodeToken hj, littleEndianBytes_littleEndian]
      rfl
    · cases h
  case h_6 => cases h

/-- Settles O2: the context by `decode_context`, the bytes by the converse of each format. -/
theorem decodedBytesAreTheEncoding : Obligations.DecodedBytesAreTheEncoding :=
  fun _ _ _ _ h => ⟨Machine.decode_context h, eq_encode_append_of_decode h⟩

/-- Settles O3: the decoder computes each word. -/
theorem wordsOfTheTableDecode : Obligations.WordsOfTheTableDecode :=
  ⟨rfl, rfl, rfl, rfl, rfl, rfl, rfl, rfl, rfl, rfl⟩

end Sys2Proof
end

section
/-! The step of the sequencer on an element that its phase takes and its limit does not cut off (R80, R184): the
hardware's own step is the element's meaning. -/

namespace Sys2Proof.Machine

open Sys2Proof

/-! ### The bytes of an element -/

theorem Memory.readBytes_eq_some {m : Memory} {a : Nat} {bs : List Byte} (h : m.wf = true)
    (hr : ∀ i, i < bs.length → m.read (a + i) = bs[i]?) : m.readBytes a bs.length = some bs := by
  rcases Memory.readBytes_cases h a bs.length with ⟨bs', he, hlen, hget⟩ | ⟨-, i, hi, hnone⟩
  · rw [he]
    refine congrArg some (List.ext_getElem?' fun i hi => ?_)
    rw [hlen, max_self] at hi
    rw [hget i hi, hr i hi]
  · rw [hr i hi, List.getElem?_eq_getElem hi] at hnone
    cases hnone

theorem Memory.readBytes_one {m : Memory} {a : Nat} {b : Byte} (h : m.wf = true) (hb : m.read a = some b) :
    m.readBytes a 1 = some [b] :=
  Memory.readBytes_eq_some (bs := [b]) h fun | 0, _ => hb

theorem Memory.readBytes_two {m : Memory} {a : Nat} {lo hi : Byte} (h : m.wf = true) (hlo : m.read a = some lo)
    (hhi : m.read (a + 1) = some hi) : m.readBytes a 2 = some [lo, hi] :=
  Memory.readBytes_eq_some (bs := [lo, hi]) h fun
    | 0, _ => hlo
    | 1, _ => hhi

/-! ### The rows of the sequencer table that take an element -/

theorem choose_group {s : State} (hp : s.phase = .group) (hlt : s.cc < s.ce) :
    choose s = .take .group s.cc s.ce := by
  simp only [choose, hp, if_neg (Nat.not_le.2 hlt)]

theorem choose_literal {s : State} (hp : s.phase = .token) (hbi : s.bi < 8) (hlt : s.cc < s.ce)
    (hf : flagBit s.fb s.bi = false) : choose s = .take .literal s.cc s.ce := by
  have hslot : ¬ (8 ≤ s.bi ∨ s.ce ≤ s.cc) := by omega
  simp only [choose, hp, if_neg hslot, hf, Bool.false_eq_true, if_false]

/-- At a position of the split `n` the formula of R121 answers `n`. -/
theorem InSplit.bitCount_eq {n d : Nat} (h4 : 4 ≤ n) (h : InSplit n d) : max 4 (clog2 d) = n := by
  obtain ⟨-, hle, hgt⟩ := h
  have hub := (clog2_le_iff d n).2 hle
  rcases Nat.eq_or_lt_of_le h4 with rfl | h4'
  · exact max_eq_left hub
  · have hlb : ¬ clog2 d ≤ n - 1 := fun hc => Nat.not_le.2 (hgt h4') ((clog2_le_iff d (n - 1)).1 hc)
    omega

theorem choose_copy_of_inSplit {s : State} {n : Nat} (hp : s.phase = .token) (hbi : s.bi < 8) (hlt : s.cc < s.ce)
    (hf : flagBit s.fb s.bi = true) (h4 : 4 ≤ n) (hn : InSplit n s.difference) :
    choose s = .take (.copy n) s.cc s.ce := by
  have hslot : ¬ (8 ≤ s.bi ∨ s.ce ≤ s.cc) := by omega
  simp only [choose, hp, if_neg hslot, if_pos hf, computeHelpData_pos (Nat.one_le_iff_ne_zero.1 hn.1),
    helpDataAt_bitCount, hn.bitCount_eq h4]

/-! ### The step -/

theorem advance_of_take_decoded {s : State} {c : Context} {a limit : Nat} {bs rest : List Byte} {i : Instr}
    (hc : choose s = .take c a limit) (hb : a + c.width ≤ limit) (hbs : s.inMem.readBytes a c.width = some bs)
    (hd : decode c bs = .ok (i, rest)) : advance s = exec i s := by
  simp only [advance, fetch, hc, fetchElement, if_neg (Nat.not_lt.2 hb), hbs, hd]

/-- Settles O18: in each phase the row of the table takes the element, its bytes are read below its limit, and the step
is its meaning. -/
theorem stepRunsTheDecodedElement : Obligations.StepRunsTheDecodedElement := by
  intro s i hh hm
  rw [step_of_no_act hh]
  refine ⟨fun b hp hle hb hd => ?_, fun lo hi hp hle hlo hhi hd => ?_, fun b hp hlt hb hd => ?_,
    fun b hp hbi hlt hf hb hd => ?_, fun n lo hi hp hbi hle hf h4 hn hlo hhi hd => ?_⟩
  · exact advance_of_take_decoded (choose_sig hp) hle (Memory.readBytes_one hm hb) hd
  · exact advance_of_take_decoded (choose_chunk hp (by omega)) hle (Memory.readBytes_two hm hlo hhi) hd
  · exact advance_of_take_decoded (choose_group hp hlt) hlt (Memory.readBytes_one hm hb) hd
  · exact advance_of_take_decoded (choose_literal hp hbi hlt hf) hlt (Memory.readBytes_one hm hb) hd
  · exact advance_of_take_decoded (choose_copy_of_inSplit hp hbi (by omega) hf h4 hn) hle
      (Memory.readBytes_two hm hlo hhi) hd

end Sys2Proof.Machine
end

section
/-! The two functions of the chunk header (R110, R111) in arithmetic, on every word and on the fields of format H, and
what follows for the bits neither of them reads (R112). -/

namespace Sys2Proof.Machine

open Sys2Proof

theorem headerSize_eq_mod (h : Half) : headerSize h = h.toNat % 4096 + 3 := by
  have hmask : h.toNat &&& 0x0FFF = h.toNat % 4096 := Nat.and_two_pow_sub_one_eq_mod h.toNat 12
  rw [headerSize, BitVec.toNat_and]
  exact congrArg (· + 3) hmask

theorem headerIsCompressed_eq_div (h : Half) : headerIsCompressed h = h.toNat / 32768 := by
  have hbit : (h &&& 0x8000#16) >>> 15 = (h >>> 15) &&& 1#16 := BitVec.ushiftRight_and_distrib h 0x8000#16 15
  have hlow : (h.toNat >>> 15) &&& 1 = h.toNat / 32768 % 2 := by rw [Nat.and_one_is_mod, Nat.shiftRight_eq_div_pow]
  rw [headerIsCompressed, hbit, BitVec.toNat_and, BitVec.toNat_ushiftRight]
  refine hlow.trans (Nat.mod_eq_of_lt ?_)
  have := h.isLt
  omega

/-- Format H (R83) as a sum: the field C at bit 15, the ignored field at bit 12, the field S below it. -/
theorem headerWord_toNat (c : BitVec 1) (x : BitVec 3) (sz : BitVec 12) :
    (headerWord c x sz).toNat = c.toNat * 32768 + x.toNat * 4096 + sz.toNat := by
  have hxs : (x ++ sz).toNat = x.toNat * 4096 + sz.toNat := by
    rw [BitVec.toNat_append, ← Nat.shiftLeft_add_eq_or_of_lt sz.isLt, Nat.shiftLeft_eq]
  rw [headerWord, BitVec.toNat_append, ← Nat.shiftLeft_add_eq_or_of_lt (x ++ sz).isLt, Nat.shiftLeft_eq, hxs]
  omega

theorem headerSize_headerWord (c : BitVec 1) (x : BitVec 3) (sz : BitVec 12) :
    headerSize (headerWord c x sz) = sz.toNat + 3 := by
  rw [headerSize_eq_mod, headerWord_toNat]
  omega

theorem headerIsCompressed_headerWord (c : BitVec 1) (x : BitVec 3) (sz : BitVec 12) :
    headerIsCompressed (headerWord c x sz) = c.toNat := by
  rw [headerIsCompressed_eq_div, headerWord_toNat]
  omega

/-- Settles O4, from the mask and the shift as remainder and quotient, and format H as a sum. -/
theorem headerSizeAndKind : Obligations.HeaderSizeAndKind := by
  refine ⟨fun h => ?_, fun c x sz => ⟨headerSize_headerWord c x sz, headerIsCompressed_headerWord c x sz⟩⟩
  obtain ⟨hmin, hmax⟩ := headerSize_bounds h
  exact ⟨headerSize_eq_mod h, hmin, hmax, headerIsCompressed_eq_div h⟩

/-- The start of a chunk reads its header through `headerSize` alone. -/
theorem chunkStart_congr {h h' : Half} (hsize : headerSize h = headerSize h')
    (rest : State → Host.Outcome State Fault Refusal) (s : State) : chunkStart h rest s = chunkStart h' rest s := by
  rw [chunkStart, chunkStart, hsize]

/-- Settles O5: both rows start a chunk, and the size of its header does not depend on the ignored field. -/
theorem ignoredHeaderBitsHaveNoEffect : Obligations.IgnoredHeaderBitsHaveNoEffect := by
  intro x x' sz s
  have hsize (c : BitVec 1) : headerSize (headerWord c x sz) = headerSize (headerWord c x' sz) := by
    rw [headerSize_headerWord, headerSize_headerWord]
  exact ⟨chunkStart_congr (hsize 0#1) rawPayload s,
    chunkStart_congr (hsize 1#1) (fun t => .next (t.enterPhase .group)) s⟩

end Sys2Proof.Machine
end

section
/-! The codec of the copy tokens (R121 to R128) in arithmetic: the split as a least exponent, the masks and `unpack` as
quotient and remainder by `2 ^ (16 - n)`, and what follows for the tokens of one split and for growing positions. -/

namespace Sys2Proof.Machine

open Sys2Proof

/-! ### The split of a position (R121, R124) -/

theorem computeHelpData_eq_some {d : Nat} {hd : HelpData} :
    computeHelpData d = some hd ↔ d ≠ 0 ∧ hd = helpDataAt (max 4 (clog2 d)) := by
  rcases eq_or_ne d 0 with rfl | hd0
  · simp [computeHelpData_zero]
  · simp [computeHelpData_pos hd0, hd0, eq_comm]

/-- Settles O6, by the least exponent `clog2` and the lower bound 4. -/
theorem bitCountIsLeastCoveringSplit : Obligations.BitCountIsLeastCoveringSplit := by
  refine ⟨computeHelpData_zero, fun d hd => ⟨_, computeHelpData_pos (Nat.one_le_iff_ne_zero.1 hd), ?_⟩⟩
  refine ⟨le_max_left _ _, (clog2_le_iff d _).1 (le_max_right _ _), fun n h4 hn => ?_⟩
  exact max_le h4 ((clog2_le_iff d n).2 hn)

theorem clog2_mono {d d' : Nat} (h : d ≤ d') : clog2 d ≤ clog2 d' :=
  (clog2_le_iff d _).2 (h.trans ((clog2_le_iff d' _).1 le_rfl))

/-! ### The masks (R122) -/

theorem lengthMask_eq_two_pow_sub_one (n : Nat) : (helpDataAt n).lengthMask.toNat = 2 ^ (16 - n) - 1 := by
  rw [lengthMask_toNat]
  refine Nat.eq_of_testBit_eq fun i => ?_
  rw [Nat.testBit_shiftRight, show 0xFFFF = 2 ^ 16 - 1 from rfl, Nat.testBit_two_pow_sub_one,
    Nat.testBit_two_pow_sub_one, decide_eq_decide]
  omega

theorem offsetMask_toNat (n : Nat) : (helpDataAt n).offsetMask.toNat = 65536 - 2 ^ (16 - n) := by
  have hnot : (helpDataAt n).offsetMask.toNat = 65535 - (helpDataAt n).lengthMask.toNat := BitVec.toNat_not
  have := Nat.two_pow_pos (16 - n)
  rw [hnot, lengthMask_eq_two_pow_sub_one]
  omega

theorem maximumLength_eq_lengthMask_add (n : Nat) :
    (helpDataAt n).maximumLength = (helpDataAt n).lengthMask.toNat + 3 := rfl

theorem maximumLength_eq_two_pow_add (n : Nat) : (helpDataAt n).maximumLength = 2 ^ (16 - n) + 2 := by
  have := Nat.two_pow_pos (16 - n)
  rw [maximumLength_eq_lengthMask_add, lengthMask_eq_two_pow_sub_one]
  omega

theorem lengthMask_antitone {n n' : Nat} (h : n ≤ n') :
    (helpDataAt n').lengthMask.toNat ≤ (helpDataAt n).lengthMask.toNat := by
  rw [lengthMask_eq_two_pow_sub_one, lengthMask_eq_two_pow_sub_one]
  exact Nat.sub_le_sub_right (Nat.pow_le_pow_right (by decide) (Nat.sub_le_sub_left h 16)) 1

/-- Settles O7: at a position of the split `n` the help data are those at `n`. -/
theorem masksSplitTheToken : Obligations.MasksSplitTheToken := by
  intro n d h4 hn
  refine ⟨helpDataAt n, computeHelpData_eq_some.2 ⟨Nat.one_le_iff_ne_zero.1 hn.1, ?_⟩, rfl, ?_⟩
  · rw [hn.bitCount_eq h4]
  · exact ⟨lengthMask_eq_two_pow_sub_one n, offsetMask_toNat n, maximumLength_eq_two_pow_add n⟩

/-- Settles O10: the split grows with `difference`, and a wider split has a shorter length field. -/
theorem bitCountNeverDecreases : Obligations.BitCountNeverDecreases := by
  intro d d' hd hd' hle h h'
  obtain ⟨-, rfl⟩ := computeHelpData_eq_some.1 h
  obtain ⟨-, rfl⟩ := computeHelpData_eq_some.1 h'
  have hsplit : max 4 (clog2 d) ≤ max 4 (clog2 d') := max_le_max_left 4 (clog2_mono hle)
  exact ⟨hsplit, lengthMask_antitone hsplit, Nat.add_le_add_right (lengthMask_antitone hsplit) 3⟩

/-- Settles O38, from the bound of `difference` in the invariant. -/
theorem splitNeverExceedsFifteen : Obligations.SplitNeverExceedsFifteen := by
  intro s hinv hp
  have hdiff : s.dc - s.dcs ≤ 26626 := hinv.difference_le hp
  refine ⟨hdiff, fun hd h => ?_⟩
  have h15 : hd.bitCount ≤ 15 := bitCount_le_fifteen (hdiff.trans (by decide)) h
  obtain ⟨-, rfl⟩ := computeHelpData_eq_some.1 h
  have hone : (helpDataAt 15).lengthMask.toNat = 1 := rfl
  exact ⟨h15, by omega, hone.symm.trans_le (lengthMask_antitone h15)⟩

/-! ### `unpack` (R126) -/

theorem unpackLength_eq_mod (n : Nat) (t : Half) :
    unpackLength t (helpDataAt n) = t.toNat % 2 ^ (16 - n) + 3 := by
  rw [unpackLength, BitVec.toNat_and, lengthMask_eq_two_pow_sub_one, Nat.and_two_pow_sub_one_eq_mod]

/-- The bits the offset mask clears are the ones the shift drops. -/
theorem and_offsetMask_ushiftRight (n : Nat) (t : Half) :
    (t &&& (helpDataAt n).offsetMask) >>> (16 - n) = t >>> (16 - n) := by
  refine BitVec.eq_of_getLsbD_eq fun i _ => ?_
  have hdropped : (0xFFFF#16).getLsbD (n + (16 - n + i)) = false := BitVec.getLsbD_of_ge _ _ (by omega)
  rcases Nat.lt_or_ge (16 - n + i) 16 with hlt | hge
  · simp only [helpDataAt, BitVec.getLsbD_ushiftRight, BitVec.getLsbD_and, BitVec.getLsbD_not, hdropped, hlt,
      decide_true, Bool.not_false, Bool.and_true]
  · simp only [BitVec.getLsbD_ushiftRight, BitVec.getLsbD_of_ge _ _ hge]

theorem unpackOffset_eq_div (n : Nat) (t : Half) :
    unpackOffset t (helpDataAt n) = t.toNat / 2 ^ (16 - n) + 1 := by
  rw [unpackOffset, helpDataAt_bitCount, and_offsetMask_ushiftRight, BitVec.toNat_ushiftRight,
    Nat.shiftRight_eq_div_pow]

/-- Settles O8, from the mask as a remainder and the shift as a quotient. -/
theorem unpackReadsTheFields : Obligations.UnpackReadsTheFields :=
  fun n t => ⟨unpackLength_eq_mod n t, unpackOffset_eq_div n t⟩

/-! ### The tokens of one split (R127) -/

theorem unpackOffset_le {n : Nat} (h : n ≤ 16) (t : Half) : unpackOffset t (helpDataAt n) ≤ 2 ^ n := by
  rw [unpackOffset_eq_div]
  exact Nat.div_lt_of_lt_mul (t.isLt.trans_eq (pow_sub_mul_pow 2 h).symm)

/-- A token is its two fields, so `unpack` at one split loses nothing. -/
theorem eq_of_unpack_eq {n : Nat} {t t' : Half} (ho : unpackOffset t (helpDataAt n) = unpackOffset t' (helpDataAt n))
    (hl : unpackLength t (helpDataAt n) = unpackLength t' (helpDataAt n)) : t = t' := by
  rw [unpackOffset_eq_div, unpackOffset_eq_div] at ho
  rw [unpackLength_eq_mod, unpackLength_eq_mod] at hl
  exact BitVec.eq_of_toNat_eq (Nat.ext_div_mod (Nat.add_right_cancel ho) (Nat.add_right_cancel hl))

/-- The token with offset field `o` and length field `l` at the split `n`. -/
def packToken (n o l : Nat) : Half := BitVec.ofNat 16 (l + 2 ^ (16 - n) * o)

theorem packToken_toNat {n o l : Nat} (h : n ≤ 16) (ho : o < 2 ^ n) (hl : l < 2 ^ (16 - n)) :
    (packToken n o l).toNat = l + 2 ^ (16 - n) * o := by
  refine Nat.mod_eq_of_lt ?_
  calc l + 2 ^ (16 - n) * o < 2 ^ (16 - n) * (o + 1) := by rw [Nat.mul_succ]; omega
    _ ≤ 2 ^ (16 - n) * 2 ^ n := Nat.mul_le_mul_left _ ho
    _ = 2 ^ 16 := pow_sub_mul_pow 2 h

theorem unpack_packToken {n o l : Nat} (h : n ≤ 16) (ho : o < 2 ^ n) (hl : l < 2 ^ (16 - n)) :
    unpackOffset (packToken n o l) (helpDataAt n) = o + 1 ∧
      unpackLength (packToken n o l) (helpDataAt n) = l + 3 := by
  obtain ⟨hdiv, hmod⟩ := (Nat.div_mod_unique (Nat.two_pow_pos (16 - n))).2 ⟨(packToken_toNat h ho hl).symm, hl⟩
  rw [unpackOffset_eq_div, unpackLength_eq_mod, hdiv, hmod]
  exact ⟨rfl, rfl⟩

/-- Settles O9: the ranges by the bounds of the two fields, the token of a pair by packing its fields. -/
theorem unpackIsABijection : Obligations.UnpackIsABijection := by
  intro n _ h15
  have h16 : n ≤ 16 := h15.trans (by decide)
  refine ⟨fun t => ?_, fun offset length ho1 ho hl3 hl => ?_⟩
  · obtain ⟨hmin, hmax⟩ := unpackLength_bounds t (helpDataAt n)
    exact ⟨one_le_unpackOffset t _, unpackOffset_le h16 t, hmin, hmax⟩
  · rw [maximumLength_eq_two_pow_add] at hl
    obtain ⟨hoff, hlen⟩ := unpack_packToken (o := offset - 1) (l := length - 3) h16 (by omega) (by omega)
    rw [Nat.sub_add_cancel ho1] at hoff
    rw [Nat.sub_add_cancel hl3] at hlen
    exact ⟨_, ⟨hoff, hlen⟩, fun t' ⟨hoff', hlen'⟩ =>
      eq_of_unpack_eq (hoff'.trans hoff.symm) (hlen'.trans hlen.symm)⟩

end Sys2Proof.Machine
end

section
/-! The elements of the TokenSequenceDecoder: the results of FLAG, LIT and COPY, and the end of a group (R141 to R146).
A COPY row is `copyToken` on a token whose fields `unpack` reads back; its byte moves repeat the last bytes of OUT
cyclically, as R145 infers. -/

namespace Sys2Proof.Machine

open Sys2Proof

/-- Settles O14: FLAG is one update of the registers and tests nothing. -/
theorem flagElement : Obligations.FlagElement := fun _ _ => rfl

/-! ### LIT (R143) -/

theorem State.hasRoom_one_iff (s : State) : s.hasRoom 1 ↔ s.outFull s.dc = false := capacityReached_eq_false.symm

theorem execLit_of_room {s : State} (h : s.hasRoom 1) (b : Byte) :
    execLit b s = .next (s.tookToken 1 1 (s.outMem.write s.dc b)) :=
  if_neg (Bool.eq_false_iff.1 (s.hasRoom_one_iff.1 h))

theorem execLit_of_full {s : State} (h : ¬ s.hasRoom 1) (b : Byte) :
    execLit b s = .next (s.raise .outOfBounds ⟨.outputWrite, s.dc⟩) :=
  if_pos (by simpa [s.hasRoom_one_iff] using h)

/-- Settles O15, from the one write of OUT and what it leaves at every other address. -/
theorem literalElement : Obligations.LiteralElement := by
  intro b s
  refine ⟨fun hroom => ?_, fun hfull => ?_⟩
  · exact ⟨_, execLit_of_room hroom b, Memory.read_write_same _ _ _, fun a ha => Memory.read_write_ne _ _ ha⟩
  · exact ⟨_, execLit_of_full hfull b, s.faulted_raise _ _⟩

/-! ### The end of a group (R146) -/

theorem choose_endOfGroup {s : State} (hp : s.phase = .token) (h : 8 ≤ s.bi ∨ s.ce ≤ s.cc) :
    choose s = .moveTo .group := by
  simp only [choose, hp, if_pos h]

theorem advance_of_moveTo {s : State} {p : Phase} (h : choose s = .moveTo p) : advance s = .next (s.enterPhase p) := by
  simp only [advance, fetch, h]

/-- Settles O21: the sequencer only moves to GROUP, and inside a chunk `cc` never passes `ce`. -/
theorem endOfGroup : Obligations.EndOfGroup := by
  intro s hh hp hend
  refine ⟨?_, fun hinv hbi => ?_⟩
  · rw [step_of_no_act hh]
    exact advance_of_moveTo (choose_endOfGroup hp (hend.imp_left Eq.ge))
  · obtain ⟨-, -, hin⟩ := (phaseInv_compressed (.inr hp)).1 hinv.phase
    have := hin.bound
    omega

/-! ### The token of a COPY row (R86, R87) -/

/-- `unpack` at the split `n` reads back the two fields that format T puts side by side. -/
theorem unpack_append {n m : Nat} (h : n + m = 16) (o : BitVec n) (l : BitVec m) :
    unpackOffset ((o ++ l).cast h) (helpDataAt n) = o.toNat + 1 ∧
      unpackLength ((o ++ l).cast h) (helpDataAt n) = l.toNat + 3 := by
  have hm : 16 - n = m := by omega
  have hsum : l.toNat + 2 ^ m * o.toNat = ((o ++ l).cast h).toNat := by
    rw [BitVec.toNat_cast, BitVec.toNat_append, ← Nat.shiftLeft_add_eq_or_of_lt l.isLt, Nat.shiftLeft_eq,
      Nat.mul_comm, Nat.add_comm]
  obtain ⟨hdiv, hmod⟩ := (Nat.div_mod_unique (Nat.two_pow_pos m)).2 ⟨hsum, l.isLt⟩
  rw [unpackOffset_eq_div, unpackLength_eq_mod, hm, hdiv, hmod]
  exact ⟨rfl, rfl⟩

/-- Each of the twelve rows is COPY on a token whose fields at the row's split are `o` and `l`. -/
theorem exec_copy_fields {i : Instr} {n o l : Nat} (h : copyFields i = some (n, o, l)) :
    ∃ token, (∀ s, exec i s = copyToken token s) ∧ unpackOffset token (helpDataAt n) = o + 1 ∧
      unpackLength token (helpDataAt n) = l + 3 := by
  cases i <;> cases h <;> exact ⟨_, fun _ => rfl, unpack_append rfl _ _⟩

/-! ### COPY (R144, R145) -/

theorem copyToken_cut_off {token : Half} {s : State} (h : s.ce < s.cc + 2) :
    copyToken token s = .next (s.raise .outOfBounds ⟨.inputRead, s.ce⟩) := if_pos h

theorem copyToken_undefined {token : Half} {s : State} (hb : s.cc + 2 ≤ s.ce) (hz : s.difference = 0) :
    copyToken token s = .next (s.raise .undefinedHelpData ⟨.none, s.cc⟩) := by
  simp only [copyToken, if_neg (Nat.not_lt.2 hb), hz, computeHelpData_zero]

/-- A byte move that reads `offset` bytes back from where it writes repeats the last `offset` bytes before `dst`
cyclically (R145). -/
theorem Appended.read_cyclic {capacity : Option Nat} {length dst offset : Nat} {out out' : Memory}
    (hap : Appended capacity length dst out out') (hpos : 0 < offset) (hle : offset ≤ dst)
    (hback : ∀ k, k < length → out'.read (dst + k) = out'.read (dst - offset + k)) (k : Nat) (hk : k < length) :
    out'.read (dst + k) = out.read (dst - offset + k % offset) := by
  induction k using Nat.strong_induction_on with
  | _ k ih =>
    rw [hback k hk]
    rcases Nat.lt_or_ge k offset with hlt | hge
    · rw [Nat.mod_eq_of_lt hlt, hap.frame _ (by omega)]
    · rw [Nat.mod_eq_sub_mod hge, ← ih (k - offset) (by omega) (by omega)]
      congr 1
      omega

/-- Everything COPY can do at a position of the split `n` with the token inside the chunk, `offset` and `length` being
what `unpack` reads there. -/
theorem copyToken_cases_of_inSplit {token : Half} {s : State} {n offset length : Nat} (h4 : 4 ≤ n) (h15 : n ≤ 15)
    (hoff : unpackOffset token (helpDataAt n) = offset) (hlen : unpackLength token (helpDataAt n) = length)
    (hb : s.cc + 2 ≤ s.ce) (hn : InSplit n s.difference) :
    (s.dc < offset ∧ copyToken token s = .next (s.raise .outOfBounds ⟨.outputRead, offset⟩)) ∨
    (offset ≤ s.dc ∧
      ((∃ out, copyToken token s = .next (s.tookToken 2 length out) ∧
          Appended s.params.outCapacity length s.dc s.outMem out ∧
          ∀ k, k < length → out.read (s.dc + k) = out.read (s.dc - offset + k)) ∨
      (∃ a, copyToken token s = .next (s.raise .outOfBounds ⟨.outputWrite, a⟩) ∧
          FullAt s.params.outCapacity length s.dc a) ∨
      (copyToken token s = .fault .outputNotWritten ∧
          ∃ a, s.dc - offset ≤ a ∧ a < s.dc ∧ s.outMem.read a = none))) := by
  have hhd : computeHelpData s.difference = some (helpDataAt n) :=
    computeHelpData_eq_some.2 ⟨Nat.one_le_iff_ne_zero.1 hn.1, by rw [hn.bitCount_eq h4]⟩
  subst hoff hlen
  rcases copyToken_cases token s with ⟨hcut, -⟩ | ⟨-, ⟨hz, -⟩ | ⟨hd, hhd', hrest⟩⟩
  · omega
  · exact absurd hn.1 (by omega)
  · cases hhd.symm.trans hhd'
    rcases hrest with ⟨hbig, -⟩ | ⟨-, hlt, he⟩ | ⟨-, hle, hmoved | hfull | ⟨he, -, hmissing⟩⟩
    · exact absurd hbig (Nat.not_lt.2 h15)
    · exact .inl ⟨hlt, he⟩
    · exact .inr ⟨hle, .inl hmoved⟩
    · exact .inr ⟨hle, .inr (.inl hfull)⟩
    · exact .inr ⟨hle, .inr (.inr ⟨he, hmissing⟩)⟩

/-- Settles O16: the split's help data unpack the row's own fields, the cases of COPY there are exclusive, and the moves
repeat the last bytes of OUT. -/
theorem copyElement : Obligations.CopyElement := by
  intro i n o l s h
  obtain ⟨token, hexec, hoff, hlen⟩ := exec_copy_fields h
  obtain ⟨h4, h15, -⟩ := context_copy (context_of_copyFields h)
  rw [hexec s]
  refine ⟨fun hb hn ho hsrc => ?_, fun hcut => ?_, fun hb hz => ?_, fun hb hn hlt => ?_⟩
  · rcases copyToken_cases_of_inSplit h4 h15 hoff hlen hb hn with
      ⟨hlt, -⟩ | ⟨-, ⟨out, he, hap, hback⟩ | ⟨a, he, hfull⟩ | ⟨-, a, hlo, hhi, hnone⟩⟩
    · omega
    · refine ⟨fun _ => ⟨out, he, hap.read_cyclic (Nat.succ_pos o) ho hback, hap.frame⟩, fun c hc hlt => ?_⟩
      have := hap.room (Nat.succ_ne_zero _) c hc
      omega
    · refine ⟨fun hroom => (hfull.not_of_room hroom).elim, fun c hc _ => ?_⟩
      obtain ⟨-, -, c', hc', rfl⟩ := hfull
      cases hc.symm.trans hc'
      exact ⟨_, he, s.faulted_raise _ _⟩
    · have hsome := hsrc a hlo hhi
      simp [hnone] at hsome
  · exact ⟨_, copyToken_cut_off hcut, s.faulted_raise _ _⟩
  · exact ⟨_, copyToken_undefined hb (Nat.sub_eq_zero_of_le hz.le), s.faulted_raise _ _⟩
  · rcases copyToken_cases_of_inSplit h4 h15 hoff hlen hb hn with ⟨-, he⟩ | ⟨hle, -⟩
    · exact ⟨_, he, s.faulted_raise _ _⟩
    · omega

end Sys2Proof.Machine
end

section
/-! The elements of the ChunkDecoder: the results of HDR_CMP and HDR_RAW and the end of a compressed chunk (R161 to
R165). Both headers start a chunk in the same way; HDR_RAW then goes through its payload. -/

namespace Sys2Proof.Machine

open Sys2Proof

/-- Settles O12: the start of a chunk is cut off or writes the chunk's registers, and HDR_CMP then only enters GROUP. -/
theorem compressedHeaderElement : Obligations.CompressedHeaderElement := by
  intro x sz s
  rw [← headerSize_headerWord 1#1 x sz]
  rcases chunkStart_cases (headerWord 1#1 x sz) (fun t => .next (t.enterPhase .group)) s with ⟨hcut, he⟩ | ⟨hb, he⟩
  · exact ⟨fun hb => absurd hcut (Nat.not_lt.2 hb), fun _ => ⟨_, he, s.faulted_raise _ _⟩⟩
  · exact ⟨fun _ => he, fun hcut => absurd hcut (Nat.not_lt.2 hb)⟩

/-! ### HDR_RAW (R165) -/

/-- Everything HDR_RAW can do, in a state whose IN is canonical: header and payload together are 4098 bytes. -/
theorem exec_hdrRaw_cases (x : BitVec 3) (sz : BitVec 12) (s : State) (hw : s.inMem.wf = true) :
    (s.cre < s.cc + 4098 ∧ exec (.hdrRaw x sz) s = .next (s.raise .outOfBounds ⟨.inputRead, s.cre⟩)) ∨
    (s.cc + 4098 ≤ s.cre ∧
      ((exec (.hdrRaw x sz) s = .fault .inputNotPlaced ∧ ¬ s.placed (s.cc + 2) 4096) ∨
      (∃ out, exec (.hdrRaw x sz) s = .next ((s.openChunk (sz.toNat + 3)).tookPayload out) ∧
          Appended s.params.outCapacity 4096 s.dc s.outMem out ∧
          ∀ i, i < 4096 → out.read (s.dc + i) = s.inMem.read (s.cc + 2 + i)) ∨
      (∃ a, exec (.hdrRaw x sz) s = .next (s.raise .outOfBounds ⟨.outputWrite, a⟩) ∧
          FullAt s.params.outCapacity 4096 s.dc a))) := by
  rcases chunkStart_cases (headerWord 0#1 x sz) rawPayload s with ⟨hcut, he⟩ | ⟨-, he⟩
  · exact .inl ⟨by omega, he⟩
  · rw [headerSize_headerWord] at he
    rcases rawPayload_cases (s.openChunk (sz.toNat + 3)) hw with
      ⟨hshort, hp⟩ | ⟨hlong, ⟨hp, i, hi, hnone⟩ | ⟨out, hp, hap, -, hbytes⟩ | ⟨a, hp, hfull, -⟩⟩
    · rw [State.openChunk_cre, State.openChunk_cc] at hshort
      exact .inl ⟨by omega, he.trans hp⟩
    all_goals
      rw [State.openChunk_cre, State.openChunk_cc] at hlong
      refine .inr ⟨by omega, ?_⟩
    · refine .inl ⟨he.trans hp, fun hpl => ?_⟩
      have hsome := hpl i hi
      exact absurd hnone (Option.isSome_iff_ne_none.1 hsome)
    · exact .inr (.inl ⟨out, he.trans hp, hap, hbytes⟩)
    · exact .inr (.inr ⟨a, he.trans hp, hfull⟩)

/-- Settles O13: the cases of HDR_RAW are exclusive, and an append leaves every address outside its own. -/
theorem rawHeaderElement : Obligations.RawHeaderElement := by
  intro x sz s hw
  rcases exec_hdrRaw_cases x sz s hw with
    ⟨hshort, he⟩ | ⟨hlong, ⟨-, hmissing⟩ | ⟨out, he, hap, hbytes⟩ | ⟨a, he, hfull⟩⟩
  · exact ⟨fun hlong => absurd hshort (Nat.not_lt.2 hlong), fun _ => ⟨_, he, s.faulted_raise _ _⟩,
      fun _ hlong => absurd hshort (Nat.not_lt.2 hlong)⟩
  all_goals refine ⟨fun _ hpl hroom => ?_, fun hshort => absurd hshort (Nat.not_lt.2 hlong), fun c _ hpl hc hlt => ?_⟩
  · exact absurd hpl hmissing
  · exact absurd hpl hmissing
  · rw [State.tookPayload, State.openChunk_cc, Nat.add_assoc] at he
    exact ⟨out, he, hbytes, hap.frame⟩
  · exact absurd (hap.room (by decide) c hc) (Nat.not_le.2 hlt)
  · exact (hfull.not_of_room hroom).elim
  · obtain ⟨-, -, c', hc', rfl⟩ := hfull
    cases hc.symm.trans hc'
    exact ⟨_, he, s.faulted_raise _ _⟩

/-! ### The end of a compressed chunk (R164) -/

theorem choose_endOfChunk {s : State} (hp : s.phase = .group) (h : s.ce ≤ s.cc) : choose s = .moveTo .chunk := by
  simp only [choose, hp, if_pos h]

/-- Settles O22: the sequencer only moves to CHUNK, and inside a chunk `cc` never passes `ce`. -/
theorem endOfChunk : Obligations.EndOfChunk := by
  intro s hh hp hend
  refine ⟨?_, fun hinv => ?_⟩
  · rw [step_of_no_act hh]
    exact advance_of_moveTo (choose_endOfChunk hp hend)
  · obtain ⟨-, -, hin⟩ := (phaseInv_compressed (.inl hp)).1 hinv.phase
    exact hin.bound.antisymm hend

end Sys2Proof.Machine
end

section
/-! What a step reads of IN (R52, R167, R187). Replacing IN commutes with everything that does not read it: the raise,
the updates of the registers, every element but HDR_RAW. What is left are two reads, the element's own bytes in the
fetch and the payload of a raw chunk, and both lie within the bounds. -/

namespace Sys2Proof.Machine

open Sys2Proof

/-- The state with another content of IN. -/
def State.setIn (m : Memory) (s : State) : State := { s with inMem := m }

section
variable (m : Memory) (s : State)

@[simp] theorem State.setIn_params : (s.setIn m).params = s.params := rfl
@[simp] theorem State.setIn_inMem : (s.setIn m).inMem = m := rfl
@[simp] theorem State.setIn_outMem : (s.setIn m).outMem = s.outMem := rfl
@[simp] theorem State.setIn_cc : (s.setIn m).cc = s.cc := rfl
@[simp] theorem State.setIn_dc : (s.setIn m).dc = s.dc := rfl
@[simp] theorem State.setIn_difference : (s.setIn m).difference = s.difference := rfl
@[simp] theorem choose_setIn : choose (s.setIn m) = choose s := rfl

end

/-! ### The elements -/

theorem execSig_setIn (b : Byte) (m : Memory) (s : State) :
    execSig b (s.setIn m) = mapNext (State.setIn m) (execSig b s) := by
  rw [execSig, execSig, apply_ite (mapNext _), apply_ite (mapNext _)]
  rfl

theorem execLit_setIn (b : Byte) (m : Memory) (s : State) :
    execLit b (s.setIn m) = mapNext (State.setIn m) (execLit b s) := by
  rw [execLit, execLit, apply_ite (mapNext _)]
  rfl

theorem copyToken_setIn (token : Half) (m : Memory) (s : State) :
    copyToken token (s.setIn m) = mapNext (State.setIn m) (copyToken token s) := by
  rw [copyToken, copyToken, apply_ite (mapNext _)]
  refine ite_congr rfl (fun _ => rfl) fun _ => ?_
  rw [State.setIn_difference]
  cases computeHelpData s.difference with
  | none => rfl
  | some hd =>
    simp only [apply_ite (mapNext _)]
    refine ite_congr rfl (fun _ => rfl) fun _ => ite_congr rfl (fun _ => rfl) fun _ => ?_
    rw [State.setIn_params, State.setIn_outMem, State.setIn_dc]
    cases copyLoop s.params.outCapacity (unpackLength token hd) (s.dc - unpackOffset token hd) s.dc s.outMem <;> rfl

theorem rawPayload_setIn {m : Memory} {s : State}
    (h : s.cc + 4096 ≤ s.cre → m.readBytes s.cc 4096 = s.inMem.readBytes s.cc 4096) :
    rawPayload (s.setIn m) = mapNext (State.setIn m) (rawPayload s) := by
  rw [rawPayload, rawPayload, apply_ite (mapNext _)]
  refine ite_congr rfl (fun _ => rfl) fun hb => ?_
  rw [State.setIn_inMem, State.setIn_cc, h (Nat.not_lt.1 hb)]
  cases s.inMem.readBytes s.cc 4096 with
  | none => rfl
  | some bs =>
    simp only [State.setIn_params, State.setIn_outMem, State.setIn_dc]
    cases appendLoop s.params.outCapacity bs s.dc s.outMem <;> rfl

/-- The start of a chunk reads nothing of IN itself. -/
theorem chunkStart_setIn {hdr : Half} {rest : State → Host.Outcome State Fault Refusal} {m : Memory} {s : State}
    (h : rest ((s.openChunk (headerSize hdr)).setIn m) = mapNext (State.setIn m) (rest (s.openChunk (headerSize hdr)))) :
    chunkStart hdr rest (s.setIn m) = mapNext (State.setIn m) (chunkStart hdr rest s) := by
  rw [chunkStart, chunkStart, apply_ite (mapNext _), ← h]
  rfl

/-- The only bytes of IN that an element reads are the payload of a raw chunk, and only inside the record. -/
theorem exec_setIn {i : Instr} {m : Memory} {s : State}
    (h : i.context = .chunk → s.cc + 4098 ≤ s.cre →
      m.readBytes (s.cc + 2) 4096 = s.inMem.readBytes (s.cc + 2) 4096) :
    exec i (s.setIn m) = mapNext (State.setIn m) (exec i s) := by
  rcases exec_kinds i with ⟨b, -, he⟩ | ⟨x, sz, rfl, he⟩ | ⟨x, sz, -, he⟩ | ⟨f, -, he⟩ | ⟨b, -, he⟩ |
    ⟨_, _, _, token, -, -, he⟩ <;> rw [he, he]
  · exact execSig_setIn b m s
  · refine chunkStart_setIn (rawPayload_setIn fun hb => h rfl ?_)
    rwa [State.openChunk_cc, State.openChunk_cre, Nat.add_assoc] at hb
  · exact chunkStart_setIn rfl
  · rfl
  · exact execLit_setIn b m s
  · exact copyToken_setIn token m s

/-! ### The fetch -/

theorem fetch_setIn {m : Memory} {s : State}
    (h : ∀ c a limit, choose s = .take c a limit → a + c.width ≤ limit →
      m.readBytes a c.width = s.inMem.readBytes a c.width) :
    fetch (s.setIn m) = fetch s := by
  rw [fetch, fetch, choose_setIn]
  cases hc : choose s with
  | take c a limit =>
    simp only [fetchElement, State.setIn_inMem]
    split
    · rfl
    next hb => rw [h c a limit hc (Nat.not_lt.1 hb)]
  | rest => rfl
  | moveTo p => rfl
  | takeUndefined => rfl

/-- An element comes from a row of R184 that takes one, in that row's context. -/
theorem choose_of_fetch_element {s : State} {i : Instr} (h : fetch s = .element i) :
    ∃ a limit, choose s = .take i.context a limit := by
  rw [fetch] at h
  cases hc : choose s with
  | take c a limit =>
    simp only [hc] at h
    rcases fetchElement_cases c a limit s with ⟨-, he⟩ | ⟨-, ⟨-, he⟩ | ⟨bs, j, rest, -, hd, he⟩ | ⟨n, -, -, he⟩⟩ <;>
      cases he.symm.trans h
    exact ⟨a, limit, by rw [decode_context hd]⟩
  | rest => simp [hc] at h
  | moveTo p => simp [hc] at h
  | takeUndefined =>
    simp only [hc] at h
    split at h <;> cases h

/-- The hardware's own step depends on IN through the bytes of the element it takes and the payload of a raw chunk. -/
theorem advance_setIn {m : Memory} {s : State}
    (helem : ∀ c a limit, choose s = .take c a limit → a + c.width ≤ limit →
      m.readBytes a c.width = s.inMem.readBytes a c.width)
    (hpayload : s.phase = .chunk → s.cc + 4098 ≤ s.cre →
      m.readBytes (s.cc + 2) 4096 = s.inMem.readBytes (s.cc + 2) 4096) :
    advance (s.setIn m) = mapNext (State.setIn m) (advance s) := by
  rw [advance, advance, fetch_setIn helem]
  cases hf : fetch s with
  | element i =>
    refine exec_setIn fun hctx => hpayload ?_
    obtain ⟨a, limit, hc⟩ := choose_of_fetch_element hf
    rw [hctx] at hc
    exact choose_take_takes hc
  | rest => rfl
  | moveTo p => rfl
  | raises reason info => rfl
  | stops f => rfl
  | refuses r => rfl

/-! ### The bounds -/

theorem SameBetween.mono {m m' : Memory} {lo hi lo' hi' : Nat} (h : SameBetween m m' lo hi) (hlo : lo ≤ lo')
    (hhi : hi' ≤ hi) : SameBetween m m' lo' hi' :=
  fun a h1 h2 => h a (hlo.trans h1) (h2.trans_le hhi)

/-- Canonical buffers that hold the same bytes at the addresses of a read answer it alike. -/
theorem SameBetween.readBytes_eq {m m' : Memory} {a n : Nat} (h : SameBetween m m' a (a + n)) (hw : m.wf = true)
    (hw' : m'.wf = true) : m'.readBytes a n = m.readBytes a n := by
  have hread : ∀ i, i < n → m.read (a + i) = m'.read (a + i) := fun i hi => h _ (by omega) (by omega)
  rcases Memory.readBytes_cases hw a n with ⟨bs, he, rfl, hget⟩ | ⟨he, i, hi, hnone⟩
  · rw [he]
    exact Memory.readBytes_eq_some hw' fun i hi => by rw [← hread i hi, hget i hi]
  · rw [he]
    rcases Memory.readBytes_cases hw' a n with ⟨bs, -, hlen, hget⟩ | ⟨he', -⟩
    · have hnone' := (hget i hi).trans ((hread i hi).symm.trans hnone)
      exact absurd (List.getElem?_eq_none_iff.1 hnone') (by omega)
    · exact he'

/-- Settles O47: the element a phase takes and the payload of a raw chunk lie within the phase's bounds, and the step
depends on no other byte of IN. -/
theorem readsStayInTheirBounds : Obligations.ReadsStayInTheirBounds := by
  intro s m hh hw hw' hsig hchunk hcomp
  rw [step_of_no_act hh, step_of_no_act (s := { s with inMem := m }) hh]
  refine advance_setIn (fun c a limit hc hb => ?_) (fun hp hb => ?_)
  · refine SameBetween.readBytes_eq ?_ hw hw'
    rcases choose_take hc with ⟨hp, rfl, rfl, rfl⟩ | ⟨hp, -, rfl, rfl, rfl⟩ | ⟨hp, -, rfl, rfl, rfl⟩ |
      ⟨hp, -, -, -, rfl, rfl, rfl⟩ | ⟨hp, -, -, -, rfl, rfl, -, rfl⟩ <;> simp only [Context.width] at hb ⊢
    · exact hsig hp
    · exact (hchunk hp).mono le_rfl (by omega)
    · exact (hcomp (.inl hp)).mono le_rfl (by omega)
    · exact (hcomp (.inr hp)).mono le_rfl (by omega)
    · exact (hcomp (.inr hp)).mono le_rfl (by omega)
  · exact ((hchunk hp).mono (by omega) (by omega)).readBytes_eq hw hw'

end Sys2Proof.Machine
end

section
/-! The engine at its two ends: SIG (R181), the end of a run (R183), and the rows of rest (R184). -/

namespace Sys2Proof.Machine

open Sys2Proof

/-! ### SIG (R181) -/

theorem execSig_empty {s : State} (h : s.cre = 0) (b : Byte) :
    execSig b s = .next (s.raise .outOfBounds ⟨.inputRead, 0⟩) := if_pos h

theorem execSig_signature {s : State} (h : s.cre ≠ 0) : execSig signatureByte s = .next s.passSignature := by
  rw [execSig, if_neg h, if_pos rfl]

theorem execSig_malformed {s : State} {b : Byte} (h : s.cre ≠ 0) (hb : b ≠ signatureByte) :
    execSig b s = .next (s.raise .malformedSignature ⟨.none, b.toNat⟩) := by
  rw [execSig, if_neg h, if_neg hb]

/-- Settles O11: the input is empty, or its byte 0 is the signature, or it is another byte. -/
theorem signatureElement : Obligations.SignatureElement := fun s =>
  ⟨execSig_signature, fun _ hne hb => ⟨_, execSig_malformed hne hb, s.faulted_raise _ _⟩,
    fun b hz => ⟨_, execSig_empty hz b, s.faulted_raise _ _⟩⟩

/-! ### The end of a run (R183) -/

theorem choose_endOfRun {s : State} (hp : s.phase = .chunk) (h : s.cre ≤ s.cc) : choose s = .moveTo .done := by
  simp only [choose, hp, if_pos h]

/-- Settles O23: the sequencer only moves to DONE, and the invariant of DONE says what OUT holds. -/
theorem endOfRun : Obligations.EndOfRun := by
  intro s hh hp hend
  have hc := choose_endOfRun hp hend
  refine ⟨s.enterPhase .done, ?_, rfl, rfl, rfl, fun hinv => ?_⟩
  · rw [step_of_no_act hh]
    exact advance_of_moveTo hc
  · obtain ⟨hfill, -, -, -, hcc⟩ := (phaseInv_done rfl).1 (hinv.enterPhase hc).phase
    exact ⟨hfill, hcc⟩

/-! ### Rest (R184, R232) -/

theorem choose_of_rest {s : State} (h : s.phase = .idle ∨ s.phase = .done ∨ s.phase = .fault) : choose s = .rest := by
  rcases h with hp | hp | hp <;> simp only [choose, hp]

/-- Settles O24: at rest the sequencer takes no element and moves to no phase. -/
theorem restKeepsTheState : Obligations.RestKeepsTheState := by
  intro s hh hp
  rw [step_of_no_act hh]
  simp only [advance, fetch, choose_of_rest hp]

end Sys2Proof.Machine
end

section
/-! Termination (R186): every step of a run lowers `stepsLeft`, so a run that goes on ends. -/

namespace Sys2Proof.Machine

open Sys2Proof

theorem stepsLeft_sig {s : State} (h : s.phase = .sig) : s.stepsLeft = 3 * s.cre + 3 := by
  simp only [State.stepsLeft, h]

theorem stepsLeft_chunk {s : State} (h : s.phase = .chunk) : s.stepsLeft = 3 * (s.cre - s.cc) + 1 := by
  simp only [State.stepsLeft, h]

theorem stepsLeft_group {s : State} (h : s.phase = .group) : s.stepsLeft = 3 * (s.cre - s.cc) + 2 := by
  simp only [State.stepsLeft, h]

theorem stepsLeft_token {s : State} (h : s.phase = .token) : s.stepsLeft = 3 * (s.cre - s.cc) + 3 := by
  simp only [State.stepsLeft, h]

theorem stepsLeft_raise (s : State) (r : FaultReason) (info : FaultInfo) : (s.raise r info).stepsLeft = 0 := rfl

theorem running_of_phase {s : State}
    (h : s.phase = .sig ∨ s.phase = .chunk ∨ s.phase = .group ∨ s.phase = .token) : s.running = true := by
  rcases h with hp | hp | hp | hp <;> simp only [State.running, State.atRest, hp, Bool.not_false]

theorem stepsLeft_pos {s : State} (hrun : s.running = true) : 0 < s.stepsLeft := by
  cases hp : s.phase
  case sig => rw [stepsLeft_sig hp]; omega
  case chunk => rw [stepsLeft_chunk hp]; omega
  case group => rw [stepsLeft_group hp]; omega
  case token => rw [stepsLeft_token hp]; omega
  all_goals simp [State.running, State.atRest, hp] at hrun

theorem stepsLeft_moveTo_lt {s : State} {p : Phase} (h : choose s = .moveTo p) :
    (s.enterPhase p).stepsLeft < s.stepsLeft := by
  rcases choose_moveTo h with ⟨hp, -, rfl⟩ | ⟨hp, -, rfl⟩ | ⟨hp, -, rfl⟩
  · rw [stepsLeft_chunk hp]
    exact Nat.succ_pos _
  · rw [stepsLeft_group hp, stepsLeft_chunk rfl]
    exact Nat.lt_succ_self _
  · rw [stepsLeft_token hp, stepsLeft_group rfl]
    exact Nat.lt_succ_self _

/-- An element takes at least one byte below its limit, which pays for the moves of the sequencer after it. -/
theorem Completes.stepsLeft_lt {s t : State} {c : Context} {a limit : Nat} (h : Completes s c t)
    (hc : choose s = .take c a limit) (hb : a + c.width ≤ limit)
    (hce : s.phase = .group ∨ s.phase = .token → s.ce ≤ s.cre) : t.stepsLeft < s.stepsLeft := by
  have htakes := choose_take_takes hc
  cases h with
  | signature hne =>
    rw [stepsLeft_sig htakes, stepsLeft_chunk rfl, State.passSignature_cre, State.passSignature_cc]
    omega
  | compressed _ _ hb' =>
    rw [stepsLeft_chunk htakes, stepsLeft_group rfl, State.enterPhase_cre, State.enterPhase_cc, State.openChunk_cre,
      State.openChunk_cc]
    omega
  | raw hb' _ =>
    rw [stepsLeft_chunk htakes, stepsLeft_chunk rfl, State.tookPayload_cre, State.tookPayload_cc, State.openChunk_cre,
      State.openChunk_cc]
    omega
  | flag f =>
    have hbyte := choose_take_one_byte hc hb (.inl rfl)
    have hend := hce (.inl htakes)
    rw [stepsLeft_group htakes, stepsLeft_token rfl, State.takeFlag_cre, State.takeFlag_cc]
    omega
  | literal _ =>
    have hbyte := choose_take_one_byte hc hb (.inr rfl)
    have hend := hce (.inr htakes.1)
    rw [stepsLeft_token htakes.1, stepsLeft_token (by exact htakes.1), State.tookToken_cre, State.tookToken_cc]
    omega
  | copy hb' _ _ =>
    have hend := hce (.inr htakes.1)
    rw [stepsLeft_token htakes.1, stepsLeft_token (by exact htakes.1), State.tookToken_cre, State.tookToken_cc]
    omega

/-- R186 for the hardware's own step. Of the invariant it needs only that the chunk's end lies in the record. -/
theorem stepsLeft_advance_lt {s t : State} (hrun : s.running = true)
    (hce : s.phase = .group ∨ s.phase = .token → s.ce ≤ s.cre) (h : advance s = .next t) :
    t.stepsLeft < s.stepsLeft := by
  rcases advance_next h with ⟨r, info, -, rfl⟩ | ⟨hrest, -⟩ | ⟨p, hc, rfl⟩ | ⟨c, a, limit, hc, hb, hcomp⟩
  · rw [stepsLeft_raise]
    exact stepsLeft_pos hrun
  · cases hrest.symm.trans (running_eq_true.1 hrun)
  · exact stepsLeft_moveTo_lt hc
  · exact hcomp.stepsLeft_lt hc hb hce

theorem Inv.ce_le_cre {s : State} (h : Inv s) (hp : s.phase = .group ∨ s.phase = .token) : s.ce ≤ s.cre := by
  obtain ⟨-, -, hin⟩ := (phaseInv_compressed hp).1 h.phase
  exact hin.recordEnd

/-- Settles O45: in a run the step is the hardware's own, whatever act of the host is pending. -/
theorem everyStepShortensTheRun : Obligations.EveryStepShortensTheRun := by
  intro s t hinv hrun hreset h
  obtain ⟨rest, hadv⟩ := step_next_of_running hrun hreset h
  exact stepsLeft_advance_lt (s := { s with host := rest }) hrun hinv.ce_le_cre hadv

/-! ### The steps of a run -/

theorem core_run_succ {s t : State} (h : step s = .next t) (n : Nat) :
    Host.Core.run core (n + 1) s = Host.Core.run core n t := by
  have hcore : core.step s = .next t := h
  simp only [Host.Core.run, hcore]

/-- Where every step from a state of `P` lowers `stepsLeft` and stays in `P` or reaches `Q`, at most `stepsLeft` steps
reach `Q`. -/
theorem run_reaches {P Q : State → Prop}
    (hstep : ∀ s, P s → ∃ t, step s = .next t ∧ t.stepsLeft < s.stepsLeft ∧ (Q t ∨ P t)) (s : State) (hs : P s) :
    ∃ (n : Nat) (t : State), n ≤ s.stepsLeft ∧ Host.Core.run core n s = .next t ∧ Q t := by
  induction hk : s.stepsLeft using Nat.strong_induction_on generalizing s with
  | _ k ih =>
    subst hk
    obtain ⟨t, ht, hlt, hQ | hP⟩ := hstep s hs
    · exact ⟨1, t, Nat.one_le_of_lt hlt, core_run_succ ht 0, hQ⟩
    · obtain ⟨n, u, hn, hrun, hQ⟩ := ih t.stepsLeft hlt t hP rfl
      exact ⟨n + 1, u, Nat.succ_le_of_lt (hn.trans_lt hlt), (core_run_succ ht n).trans hrun, hQ⟩

/-- A step of a run leaves it in progress or ends it. -/
theorem advance_running_or_ends {s t : State} (hrun : s.running = true) (h : advance s = .next t) :
    t.running = true ∨ t.phase = .done ∨ t.phase = .fault := by
  rcases advance_next h with ⟨r, info, -, rfl⟩ | ⟨hrest, -⟩ | ⟨p, hc, rfl⟩ | ⟨c, a, limit, hc, -, hcomp⟩
  · exact .inr (.inr rfl)
  · cases hrest.symm.trans (running_eq_true.1 hrun)
  · rcases choose_moveTo hc with ⟨-, -, rfl⟩ | ⟨-, -, rfl⟩ | ⟨-, -, rfl⟩
    · exact .inr (.inl rfl)
    · exact .inl rfl
    · exact .inl rfl
  · cases hcomp with
    | signature _ => exact .inl rfl
    | compressed _ _ _ => exact .inl rfl
    | raw _ _ => exact .inl rfl
    | flag _ => exact .inl rfl
    | literal _ => exact .inl hrun
    | copy _ _ _ => exact .inl hrun

/-- A run in progress whose input is placed, with no act of the host pending. -/
structure PlacedRun (s : State) : Prop where
  inv : Inv s
  running : s.running = true
  noAct : s.host = []
  placed : s.placed 0 s.cre

theorem PlacedRun.step {s : State} (h : PlacedRun s) :
    ∃ t, step s = .next t ∧ t.stepsLeft < s.stepsLeft ∧ ((t.phase = .done ∨ t.phase = .fault) ∨ PlacedRun t) := by
  obtain ⟨t, ht⟩ := placedRunAlwaysAdvances s h.inv h.running h.noAct h.placed
  have hadv : advance s = .next t := (step_of_no_act h.noAct).symm.trans ht
  refine ⟨t, ht, stepsLeft_advance_lt h.running h.inv.ce_le_cre hadv, ?_⟩
  rcases advance_running_or_ends h.running hadv with hrun | hend
  · have hne : t.phase ≠ .fault := fun hp => by simp [State.running, State.atRest, hp] at hrun
    have hprog := advance_progress hadv hne
    have hpl : t.placed 0 t.cre := by
      rw [State.placed, hprog.inMem, hprog.cre]
      exact h.placed
    exact .inr ⟨h.inv.advance hadv, hrun, hprog.host.trans h.noAct, hpl⟩
  · exact .inl hend

/-- Settles O46: a run whose input is placed takes a step whenever it has not ended, and at the signature
`3 * IN_LEN + 3` steps are left. -/
theorem everyRunEnds : Obligations.EveryRunEnds := by
  intro s hinv hp hh hpl
  have hrun := running_of_phase (.inl hp)
  rw [← (hinv.inRun hrun).recordEnd, ← stepsLeft_sig hp]
  exact run_reaches (fun _ => PlacedRun.step) s ⟨hinv, hrun, hh, hpl⟩

end Sys2Proof.Machine
end

section
/-! The listing of R185 in the machine's terms: one equation for each turn of a loop, its 16-bit values and fields as
the operands of the elements, and its two loops of appends as the byte moves of COPY and HDR_RAW. -/

namespace Sys2Proof.Machine

open Sys2Proof

/-! ### Bytes and fields -/

theorem listByte_eq_some {bs : List Byte} {a : Nat} (h : a < bs.length) : bs[a]? = some (listByte bs a) := by
  rw [listByte, List.getElem?_eq_getElem h, Option.getD_some]

/-- The 16-bit value at an address of the listing's input. -/
def listHalf (bs : List Byte) (a : Nat) : Half := littleEndian (listByte bs a) (listByte bs (a + 1))

theorem listHalf_toNat (bs : List Byte) (a : Nat) :
    (listHalf bs a).toNat = (listByte bs a).toNat + 256 * (listByte bs (a + 1)).toNat := by
  rw [listHalf, littleEndian, BitVec.toNat_append, ← Nat.shiftLeft_add_eq_or_of_lt (listByte bs a).isLt,
    Nat.shiftLeft_eq]
  omega

theorem headerSize_eq_and (h : Half) : (h.toNat &&& 0x0FFF) + 3 = headerSize h := by
  rw [headerSize, BitVec.toNat_and]
  rfl

theorem headerIsCompressed_eq_and (h : Half) : (h.toNat &&& 0x8000) >>> 15 = headerIsCompressed h := by
  rw [headerIsCompressed, BitVec.toNat_ushiftRight, BitVec.toNat_and]
  rfl

theorem unpackLength_eq_and (t : Half) (n : Nat) :
    (t.toNat &&& 0xFFFF >>> n) + 3 = unpackLength t (helpDataAt n) := by
  rw [unpackLength, BitVec.toNat_and, lengthMask_toNat]

theorem unpackOffset_eq_and (t : Half) (n : Nat) :
    ((t.toNat &&& (0xFFFF - 0xFFFF >>> n)) >>> (16 - n)) + 1 = unpackOffset t (helpDataAt n) := by
  have hmask : (helpDataAt n).offsetMask.toNat = 0xFFFF - (helpDataAt n).lengthMask.toNat := BitVec.toNat_not
  rw [unpackOffset, BitVec.toNat_ushiftRight, BitVec.toNat_and, hmask, lengthMask_toNat, helpDataAt_bitCount]

theorem flagBit_eq_false_iff (fb : Byte) (i : Nat) : flagBit fb i = false ↔ (fb.toNat >>> i) &&& 1 = 0 := by
  rw [flagBit, BitVec.getLsbD, Nat.testBit, Nat.and_comm]
  simp

theorem flagBit_eq_true_iff (fb : Byte) (i : Nat) : flagBit fb i = true ↔ (fb.toNat >>> i) &&& 1 ≠ 0 := by
  rw [ne_eq, ← flagBit_eq_false_iff, Bool.not_eq_false]

/-! ### The loops, one turn at a time -/

variable {capacity : Option Nat} {inp out : List Byte} {dcs ce fb turns left bi cc : Nat}

/-- The group loop from the position a token loop reached. -/
def groupsAfter (capacity : Option Nat) (inp : List Byte) (dcs ce turns : Nat) (p : Nat × List Byte) :
    Loop (Nat × List Byte) := listGroups capacity inp dcs ce turns p.1 p.2

/-- The chunk loop from the position a group loop reached. -/
def chunksAfter (capacity : Option Nat) (inp : List Byte) (turns : Nat) (p : Nat × List Byte) : Loop (List Byte) :=
  listChunks capacity inp turns p.1 p.2

/-- What a run returns when its chunk loop ends so. -/
def runResult : Loop (List Byte) → RunResult
  | .error e => .fault e.1 e.2
  | .ok out => .done out

theorem listTokens_end (h : left = 0 ∨ ce ≤ cc) :
    listTokens capacity inp dcs ce fb left bi cc out = .ok (cc, out) := by
  cases left with
  | zero => rfl
  | succ left => rw [listTokens, if_pos (h.resolve_left (Nat.succ_ne_zero left))]

theorem listTokens_literal (hlt : cc < ce) (hbit : (fb >>> bi) &&& 1 = 0) :
    listTokens capacity inp dcs ce fb (left + 1) bi cc out =
      if capacityReached capacity out.length then .error (.outOfBounds, ⟨.outputWrite, out.length⟩)
      else listTokens capacity inp dcs ce fb left (bi + 1) (cc + 1) (out ++ [listByte inp cc]) := by
  rw [listTokens, if_neg (Nat.not_le.2 hlt), if_pos hbit]

theorem listTokens_cut_off (hcut : cc + 1 = ce) (hbit : (fb >>> bi) &&& 1 ≠ 0) :
    listTokens capacity inp dcs ce fb (left + 1) bi cc out = .error (.outOfBounds, ⟨.inputRead, ce⟩) := by
  rw [listTokens, if_neg (by omega), if_neg hbit, if_pos (by omega)]

theorem listTokens_undefined (hb : cc + 2 ≤ ce) (hbit : (fb >>> bi) &&& 1 ≠ 0) (hz : out.length - dcs = 0) :
    listTokens capacity inp dcs ce fb (left + 1) bi cc out = .error (.undefinedHelpData, ⟨.none, cc⟩) := by
  rw [listTokens, if_neg (by omega), if_neg hbit, if_neg (by omega)]
  exact if_pos hz

theorem listTokens_copy {hd : HelpData} (hb : cc + 2 ≤ ce) (hbit : (fb >>> bi) &&& 1 ≠ 0)
    (hhd : computeHelpData (out.length - dcs) = some hd) :
    listTokens capacity inp dcs ce fb (left + 1) bi cc out =
      if out.length < unpackOffset (listHalf inp cc) hd then
        .error (.outOfBounds, ⟨.outputRead, unpackOffset (listHalf inp cc) hd⟩)
      else (listCopy capacity (unpackOffset (listHalf inp cc) hd) (unpackLength (listHalf inp cc) hd) out).bind
        (listTokens capacity inp dcs ce fb left (bi + 1) (cc + 2)) := by
  obtain ⟨hd0, rfl⟩ := computeHelpData_eq_some.1 hhd
  rw [listTokens, if_neg (by omega), if_neg hbit, if_neg (by omega)]
  simp only [if_neg hd0, ← listHalf_toNat, unpackLength_eq_and, unpackOffset_eq_and]
  cases listCopy capacity _ _ out <;> rfl

theorem listGroups_end (h : ce ≤ cc) : listGroups capacity inp dcs ce turns cc out = .ok (cc, out) := by
  cases turns with
  | zero => rfl
  | succ turns => rw [listGroups, if_pos h]

theorem listGroups_flag (hlt : cc < ce) :
    listGroups capacity inp dcs ce (turns + 1) cc out =
      (listTokens capacity inp dcs ce (listByte inp cc).toNat 8 0 (cc + 1) out).bind
        (groupsAfter capacity inp dcs ce turns) := by
  rw [listGroups, if_neg (Nat.not_le.2 hlt)]
  cases listTokens capacity inp dcs ce (listByte inp cc).toNat 8 0 (cc + 1) out <;> rfl

theorem listChunks_end (h : inp.length ≤ cc) : listChunks capacity inp turns cc out = .ok out := by
  cases turns with
  | zero => rfl
  | succ turns => rw [listChunks, if_pos h]

theorem listChunks_cut_off (hcut : cc + 1 = inp.length) :
    listChunks capacity inp (turns + 1) cc out = .error (.outOfBounds, ⟨.inputRead, inp.length⟩) := by
  rw [listChunks, if_neg (by omega), if_pos (by omega)]

theorem listChunks_compressed (hb : cc + 2 ≤ inp.length) (hc : headerIsCompressed (listHalf inp cc) = 1) :
    listChunks capacity inp (turns + 1) cc out =
      (listGroups capacity inp out.length (min inp.length (cc + headerSize (listHalf inp cc))) inp.length (cc + 2)
        out).bind (chunksAfter capacity inp turns) := by
  rw [listChunks, if_neg (by omega), if_neg (by omega)]
  simp only [← listHalf_toNat, headerIsCompressed_eq_and, headerSize_eq_and, if_pos hc]
  cases listGroups capacity inp out.length (min inp.length (cc + headerSize (listHalf inp cc))) inp.length (cc + 2)
    out <;> rfl

theorem listChunks_raw (hb : cc + 2 ≤ inp.length) (hc : headerIsCompressed (listHalf inp cc) ≠ 1) :
    listChunks capacity inp (turns + 1) cc out =
      if inp.length < cc + 2 + 4096 then .error (.outOfBounds, ⟨.inputRead, inp.length⟩)
      else (listRaw capacity inp 4096 (cc + 2) out).bind (listChunks capacity inp turns (cc + 2 + 4096)) := by
  rw [listChunks, if_neg (by omega), if_neg (by omega)]
  simp only [← listHalf_toNat, headerIsCompressed_eq_and, if_neg hc]
  cases listRaw capacity inp 4096 (cc + 2) out <;> rfl

theorem decompress_empty (h : inp.length = 0) : decompress capacity inp = .fault .outOfBounds ⟨.inputRead, 0⟩ := by
  rw [decompress, if_pos h]

theorem decompress_malformed (h : inp.length ≠ 0) (hb : listByte inp 0 ≠ signatureByte) :
    decompress capacity inp = .fault .malformedSignature ⟨.none, (listByte inp 0).toNat⟩ := by
  rw [decompress, if_neg h, if_pos hb]

theorem decompress_signature (h : inp.length ≠ 0) (hb : listByte inp 0 = signatureByte) :
    decompress capacity inp = runResult (listChunks capacity inp inp.length 1 []) := by
  rw [decompress, if_neg h, if_neg (not_not.2 hb)]
  cases listChunks capacity inp inp.length 1 [] <;> rfl

/-! ### The byte moves -/

theorem read_cellsFrom_zero (out : List Byte) (a : Nat) : (cellsFrom 0 out).read a = out[a]? := by
  rw [read_cellsFrom, if_pos (Nat.zero_le a), Nat.sub_zero]

/-- An append of the machine is an append of the listing. -/
theorem cellsFrom_write (out : List Byte) (b : Byte) :
    (cellsFrom 0 out).write out.length b = cellsFrom 0 (out ++ [b]) := by
  refine Memory.ext_read (Memory.wf_write (wf_cellsFrom 0 out) _ b) (wf_cellsFrom 0 _) fun a => ?_
  rw [read_cellsFrom_zero]
  rcases eq_or_ne a out.length with rfl | hne
  · rw [Memory.read_write_same, List.getElem?_concat_length]
  · rw [Memory.read_write_ne _ b hne, read_cellsFrom_zero]
    rcases Nat.lt_or_gt_of_ne hne with hlt | hgt
    · rw [List.getElem?_append_left hlt]
    · rw [List.getElem?_eq_none hgt.le, List.getElem?_eq_none (by simpa using hgt)]

/-- A sequence of byte moves that appends to the output ends as a loop of `n` appends of the listing. -/
inductive MovesAs (n : Nat) (out : List Byte) : MoveResult → Loop (List Byte) → Prop where
  | moved {out' : List Byte} (hlen : out'.length = out.length + n) :
    MovesAs n out (.moved (cellsFrom 0 out')) (.ok out')
  | full (a : Nat) : MovesAs n out (.full a) (.error (.outOfBounds, ⟨.outputWrite, a⟩))

/-- One append before the others. -/
theorem MovesAs.append {n : Nat} {b : Byte} {m : MoveResult} {l : Loop (List Byte)}
    (h : MovesAs n (out ++ [b]) m l) : MovesAs (n + 1) out m l := by
  cases h with
  | moved hlen => exact .moved (by rw [hlen, List.length_append, List.length_singleton]; omega)
  | full a => exact .full a

theorem copyLoop_movesAs_listCopy {offset : Nat} (hpos : 1 ≤ offset) (n : Nat) (hle : offset ≤ out.length) :
    MovesAs n out (copyLoop capacity n (out.length - offset) out.length (cellsFrom 0 out))
      (listCopy capacity offset n out) := by
  induction n generalizing out with
  | zero => exact .moved rfl
  | succ n ih =>
    have hsrc : (cellsFrom 0 out).read (out.length - offset) = some (listByte out (out.length - offset)) := by
      rw [read_cellsFrom_zero, listByte_eq_some (by omega)]
    simp only [copyLoop, listCopy, hsrc]
    split
    · exact .full _
    · have hnext := (ih (out := out ++ [listByte out (out.length - offset)]) (by simp; omega)).append
      have hlen : (out ++ [listByte out (out.length - offset)]).length = out.length + 1 := by simp
      rwa [hlen, Nat.sub_add_comm hle, ← cellsFrom_write] at hnext

theorem appendLoop_movesAs_listRaw {bs : List Byte} {src : Nat}
    (h : ∀ i, i < bs.length → bs[i]? = inp[src + i]?) :
    MovesAs bs.length out (appendLoop capacity bs out.length (cellsFrom 0 out))
      (listRaw capacity inp bs.length src out) := by
  induction bs generalizing src out with
  | nil => exact .moved rfl
  | cons b bs ih =>
    have h0 : some b = inp[src]? := h 0 (Nat.succ_pos _)
    have hb : listByte inp src = b := by rw [listByte, ← h0, Option.getD_some]
    simp only [appendLoop, List.length_cons, listRaw, hb]
    split
    · exact .full _
    · have hrest : ∀ i, i < bs.length → bs[i]? = inp[src + 1 + i]? := fun i hi => by
        rw [Nat.add_assoc, Nat.add_comm 1 i, ← h (i + 1) (Nat.succ_lt_succ hi), List.getElem?_cons_succ]
      have hnext := (ih (out := out ++ [b]) hrest).append
      rwa [List.length_append, List.length_singleton, ← cellsFrom_write] at hnext

end Sys2Proof.Machine
end

section
/-! The step machine refines the listing (R184, R185). In every state of a run the listing's loops, started where the
cursors stand, say what the run returns (`Expects`); each row of R184 is a turn of a loop or the end of one, so a step
leaves a state that expects the same result or one that shows it. -/

namespace Sys2Proof.Machine

open Sys2Proof

variable {s : State}

/-! ### The elements as the listing reads them -/

/-- A header decodes to the row its top bit selects (R83, R111). -/
theorem exec_decodeHeader (h : Half) (s : State) :
    exec (decodeHeader h) s =
      if headerIsCompressed h = 1 then chunkStart h (fun t => .next (t.enterPhase .group)) s
      else chunkStart h rawPayload s := by
  have hw := headerWord_of_fields h
  have hc : headerIsCompressed h = (BitVec.ofBool (h.getLsbD 15)).toNat := by
    conv_lhs => rw [← hw]
    exact headerIsCompressed_headerWord _ _ _
  rw [decodeHeader, hc]
  cases hbit : h.getLsbD 15 <;> rw [hbit] at hw
  · exact congrArg (chunkStart · rawPayload s) hw
  · exact congrArg (chunkStart · (fun t => .next (t.enterPhase .group)) s) hw

/-- A copy token means COPY on its 16-bit value, at every split of the table. -/
theorem exec_of_decodeToken {n : Nat} {t : Half} {i : Instr} (h : decodeToken n t = some i) (s : State) :
    exec i s = copyToken t s := by
  have hctx : i.context = .copy n := decode_context (decode_copy_littleEndianBytes h [])
  obtain ⟨-, -, o, l, hf⟩ := context_copy hctx
  obtain ⟨token, henc, hexec⟩ := exec_of_copyFields hf
  have htoken : token = t := by
    have hbytes := henc.symm.trans (encode_of_decodeToken h)
    simp only [littleEndianBytes, List.cons.injEq, and_true] at hbytes
    rw [← littleEndian_extractLsb' token, hbytes.1, hbytes.2, littleEndian_extractLsb']
  rw [hexec, htoken]

/-! ### The positions of a copy token -/

theorem choose_copy_undefined (hp : s.phase = .token) (hbi : s.bi < 8) (hlt : s.cc < s.ce)
    (hf : flagBit s.fb s.bi = true) (hz : s.difference = 0) : choose s = .takeUndefined := by
  have hslot : ¬ (8 ≤ s.bi ∨ s.ce ≤ s.cc) := by omega
  simp only [choose, hp, if_neg hslot, if_pos hf, hz, computeHelpData_zero]

theorem advance_of_takeUndefined (hc : choose s = .takeUndefined) (hb : s.cc + 2 ≤ s.ce) :
    advance s = .next (s.raise .undefinedHelpData ⟨.none, s.cc⟩) := by
  simp only [advance, fetch, hc, if_neg (Nat.not_lt.2 hb)]

/-- Every position past the chunk's start lies in the split of R121. -/
theorem inSplit_of_ne_zero {d : Nat} (hd : d ≠ 0) : InSplit (max 4 (clog2 d)) d := by
  refine ⟨Nat.one_le_iff_ne_zero.2 hd, (clog2_le_iff d _).1 (le_max_right _ _), fun h4 => ?_⟩
  refine Nat.lt_of_not_le fun hle => ?_
  have := (clog2_le_iff d _).2 hle
  omega

theorem copyToken_before_output {token : Half} {hd : HelpData} (hb : s.cc + 2 ≤ s.ce)
    (hhd : computeHelpData s.difference = some hd) (h15 : hd.bitCount ≤ 15) (hoff : s.dc < unpackOffset token hd) :
    copyToken token s = .next (s.raise .outOfBounds ⟨.outputRead, unpackOffset token hd⟩) := by
  simp only [copyToken, if_neg (Nat.not_lt.2 hb), hhd, if_neg (Nat.not_lt.2 h15), if_pos hoff]

/-! ### The elements inside a chunk -/

theorem InChunk.takeFlag (h : InChunk s) (hb : s.cc + 1 ≤ s.ce) (f : Byte) : InChunk (s.takeFlag f) :=
  ⟨h.first, h.start.trans (Nat.le_add_right _ _), hb, h.recordEnd, h.size, h.order,
    h.growth_add (n := 0) (.inl (by decide))⟩

theorem InChunk.tookToken {k n : Nat} {m : Memory} (h : InChunk s) (hb : s.cc + k ≤ s.ce)
    (hn : n ≤ 5 * k ∨ s.difference + n ≤ 6146) : InChunk (s.tookToken k n m) :=
  ⟨h.first, h.start.trans (Nat.le_add_right _ _), hb, h.recordEnd, h.size, h.order.trans (Nat.le_add_right _ _),
    h.growth_add hn⟩

/-! ### The state and the position of the listing -/

/-- The machine has the listing's input before it and the listing's output behind it. -/
structure Tracks (inp out : List Byte) (s : State) : Prop where
  noAct : s.host = []
  canonical : s.inMem.wf = true
  input : ∀ a, a < inp.length → s.inMem.read a = inp[a]?
  recordEnd : s.cre = inp.length
  output : s.outMem = cellsFrom 0 out
  outLength : s.dc = out.length

/-- The listing stands at the head of its chunk loop, with enough turns left for the record. -/
structure AtChunk (inp out : List Byte) (turns : Nat) (s : State) : Prop extends Tracks inp out s where
  phase : s.phase = .chunk
  pastSignature : 1 ≤ s.cc
  turnsLeft : inp.length ≤ s.cc + turns

/-- The listing stands at the head of its group loop, with enough turns left for the chunk and for the record. -/
structure AtGroup (inp out : List Byte) (turns chunkTurns : Nat) (s : State) : Prop extends Tracks inp out s where
  phase : s.phase = .group
  inChunk : InChunk s
  turnsLeft : s.ce ≤ s.cc + turns
  chunkTurnsLeft : inp.length ≤ s.cc + chunkTurns

/-- The listing stands at the head of its token loop, with `left` slots of the flag byte not used yet. -/
structure AtToken (inp out : List Byte) (left turns chunkTurns : Nat) (s : State) : Prop
    extends Tracks inp out s where
  phase : s.phase = .token
  inChunk : InChunk s
  slots : left + s.bi = 8
  turnsLeft : s.ce ≤ s.cc + turns
  chunkTurnsLeft : inp.length ≤ s.cc + chunkTurns

/-- What the listing returns from the head of its chunk loop on. -/
def chunksResult (inp out : List Byte) (turns : Nat) (s : State) : RunResult :=
  runResult (listChunks s.params.outCapacity inp turns s.cc out)

/-- What the listing returns from the head of its group loop on. -/
def groupsResult (inp out : List Byte) (turns chunkTurns : Nat) (s : State) : RunResult :=
  runResult ((listGroups s.params.outCapacity inp s.dcs s.ce turns s.cc out).bind
    (chunksAfter s.params.outCapacity inp chunkTurns))

/-- What the listing returns from the head of its token loop on. -/
def tokensResult (inp out : List Byte) (left turns chunkTurns : Nat) (s : State) : RunResult :=
  runResult (((listTokens s.params.outCapacity inp s.dcs s.ce s.fb.toNat left s.bi s.cc out).bind
    (groupsAfter s.params.outCapacity inp s.dcs s.ce turns)).bind (chunksAfter s.params.outCapacity inp chunkTurns))

/-- The result that the listing returns from the position of a state in a run. -/
inductive Expects (inp : List Byte) (s : State) : RunResult → Prop where
  | signature (hp : s.phase = .sig) (h : Tracks inp [] s) : Expects inp s (decompress s.params.outCapacity inp)
  | chunk {out : List Byte} {turns : Nat} (h : AtChunk inp out turns s) : Expects inp s (chunksResult inp out turns s)
  | group {out : List Byte} {turns chunkTurns : Nat} (h : AtGroup inp out turns chunkTurns s) :
    Expects inp s (groupsResult inp out turns chunkTurns s)
  | token {out : List Byte} {left turns chunkTurns : Nat} (h : AtToken inp out left turns chunkTurns s) :
    Expects inp s (tokensResult inp out left turns chunkTurns s)

/-- A step shows the result or leaves a state that expects it. -/
def StepRefines (inp : List Byte) (s : State) (r : RunResult) : Prop :=
  ∃ t, step s = .next t ∧ (t.shows r ∨ Expects inp t r)

variable {inp out : List Byte} {turns chunkTurns left : Nat} {r : RunResult}

theorem StepRefines.of_expects {t : State} (he : step s = .next t) (h : Expects inp t r) : StepRefines inp s r :=
  ⟨t, he, .inr h⟩

theorem StepRefines.of_faulted {t : State} {reason : FaultReason} {info : FaultInfo} (he : step s = .next t)
    (h : Faulted s reason info t) : StepRefines inp s (.fault reason info) :=
  ⟨t, he, .inl ⟨h.phase, h.reason, h.info⟩⟩

theorem StepRefines.of_raise {reason : FaultReason} {info : FaultInfo} (he : step s = .next (s.raise reason info)) :
    StepRefines inp s (.fault reason info) := .of_faulted he (s.faulted_raise reason info)

/-! ### The two buffers -/

theorem Tracks.read_byte (h : Tracks inp out s) {a : Nat} (ha : a < s.cre) :
    s.inMem.read a = some (listByte inp a) := by
  rw [h.recordEnd] at ha
  rw [h.input a ha, listByte_eq_some ha]

theorem Tracks.readBytes (h : Tracks inp out s) {a n : Nat} (hb : a + n ≤ s.cre) :
    ∃ bs, s.inMem.readBytes a n = some bs ∧ bs.length = n ∧ ∀ i, i < n → bs[i]? = inp[a + i]? := by
  rcases Memory.readBytes_cases h.canonical a n with ⟨bs, he, hlen, hget⟩ | ⟨-, i, hi, hnone⟩
  · exact ⟨bs, he, hlen, fun i hi => (hget i hi).trans (h.input _ (by have := h.recordEnd; omega))⟩
  · rw [h.read_byte (by omega)] at hnone
    cases hnone

/-- A step that appends to OUT and leaves the input side alone goes on tracking the listing. -/
theorem Tracks.update {t : State} {out' : List Byte} (h : Tracks inp out s) (hhost : t.host = s.host)
    (hin : t.inMem = s.inMem) (hcre : t.cre = s.cre) (hout : t.outMem = cellsFrom 0 out') (hdc : t.dc = out'.length) :
    Tracks inp out' t :=
  ⟨hhost.trans h.noAct, hin ▸ h.canonical, hin ▸ h.input, hcre.trans h.recordEnd, hout, hdc⟩

/-- The payload of a raw chunk is the raw loop of the listing. -/
theorem Tracks.rawPayload (h : Tracks inp out s) (hb : s.cc + 4096 ≤ s.cre) :
    (∃ out', listRaw s.params.outCapacity inp 4096 s.cc out = .ok out' ∧ out'.length = out.length + 4096 ∧
      rawPayload s = .next (s.tookPayload (cellsFrom 0 out'))) ∨
    ∃ a, listRaw s.params.outCapacity inp 4096 s.cc out = .error (.outOfBounds, ⟨.outputWrite, a⟩) ∧
      rawPayload s = .next (s.raise .outOfBounds ⟨.outputWrite, a⟩) := by
  obtain ⟨bs, hbs, hlen, hget⟩ := h.readBytes hb
  have hm := appendLoop_movesAs_listRaw (capacity := s.params.outCapacity) (out := out) (src := s.cc)
    fun i hi => hget i (hlen ▸ hi)
  rw [hlen, ← h.outLength, ← h.output] at hm
  simp only [Machine.rawPayload, if_neg (Nat.not_lt.2 hb), hbs]
  generalize appendLoop s.params.outCapacity bs s.dc s.outMem = m at hm
  generalize listRaw s.params.outCapacity inp 4096 s.cc out = l at hm
  cases hm with
  | moved hlen' => exact .inl ⟨_, rfl, hlen', rfl⟩
  | full a => exact .inr ⟨a, rfl, rfl⟩

/-- COPY at a position with a split is the copy loop of the listing. -/
theorem Tracks.copyToken (h : Tracks inp out s) {token : Half} {hd : HelpData} (hb : s.cc + 2 ≤ s.ce)
    (hhd : computeHelpData s.difference = some hd) (h15 : hd.bitCount ≤ 15) (hoff : unpackOffset token hd ≤ s.dc) :
    (∃ out', listCopy s.params.outCapacity (unpackOffset token hd) (unpackLength token hd) out = .ok out' ∧
      out'.length = out.length + unpackLength token hd ∧
      copyToken token s = .next (s.tookToken 2 (unpackLength token hd) (cellsFrom 0 out'))) ∨
    ∃ a, listCopy s.params.outCapacity (unpackOffset token hd) (unpackLength token hd) out =
        .error (.outOfBounds, ⟨.outputWrite, a⟩) ∧
      copyToken token s = .next (s.raise .outOfBounds ⟨.outputWrite, a⟩) := by
  have hm := copyLoop_movesAs_listCopy (capacity := s.params.outCapacity) (one_le_unpackOffset token hd)
    (unpackLength token hd) (h.outLength ▸ hoff)
  rw [← h.outLength, ← h.output] at hm
  simp only [Machine.copyToken, if_neg (Nat.not_lt.2 hb), hhd, if_neg (Nat.not_lt.2 h15), if_neg (Nat.not_lt.2 hoff)]
  generalize copyLoop s.params.outCapacity _ _ s.dc s.outMem = m at hm
  generalize listCopy s.params.outCapacity _ _ out = l at hm
  cases hm with
  | moved hlen' => exact .inl ⟨_, rfl, hlen', rfl⟩
  | full a => exact .inr ⟨a, rfl, rfl⟩

/-! ### Phase SIG (R181) -/

theorem Tracks.step_signature (h : Tracks inp [] s) (hp : s.phase = .sig) :
    StepRefines inp s (decompress s.params.outCapacity inp) := by
  by_cases hz : inp.length = 0
  · obtain ⟨hcut, -, -⟩ := cutOffElementsFault s h.noAct
    obtain ⟨t, he, hf⟩ := hcut hp (h.recordEnd.trans hz)
    rw [decompress_empty hz]
    exact .of_faulted he hf
  have hne : s.cre ≠ 0 := h.recordEnd ▸ hz
  obtain ⟨hstep, -, -, -, -⟩ := stepRunsTheDecodedElement s (.sig (listByte inp 0)) h.noAct h.canonical
  have he : step s = execSig (listByte inp 0) s :=
    hstep _ hp (Nat.one_le_iff_ne_zero.2 hne) (h.read_byte (Nat.pos_of_ne_zero hne)) rfl
  by_cases hb : listByte inp 0 = signatureByte
  · rw [hb, execSig_signature hne] at he
    rw [decompress_signature hz hb]
    exact .of_expects he (.chunk ⟨h.update rfl rfl rfl h.output h.outLength, rfl, le_rfl, Nat.le_add_left _ _⟩)
  · rw [execSig_malformed hne hb] at he
    rw [decompress_malformed hz hb]
    exact .of_raise he

/-! ### Phase CHUNK (R161 to R165, R183) -/

theorem AtChunk.step_compressed (h : AtChunk inp out (turns + 1) s) (hb : s.cc + 2 ≤ s.cre)
    (hc : headerIsCompressed (listHalf inp s.cc) = 1)
    (he : step s = chunkStart (listHalf inp s.cc) (fun t => .next (t.enterPhase .group)) s) :
    StepRefines inp s (chunksResult inp out (turns + 1) s) := by
  obtain ⟨hmin, hmax⟩ := headerSize_bounds (listHalf inp s.cc)
  have hin := (inChunk_openChunk h.pastSignature hmin hmax hb).enterPhase .group
  have hturns := h.turnsLeft
  rw [chunkStart, if_neg (Nat.not_lt.2 hb)] at he
  rw [chunksResult, listChunks_compressed (h.recordEnd ▸ hb) hc, ← h.outLength, ← h.recordEnd]
  refine .of_expects he (.group (turns := s.cre)
    ⟨h.update rfl rfl rfl h.output h.outLength, rfl, hin, hin.recordEnd.trans (Nat.le_add_left _ _), ?_⟩)
  rw [State.enterPhase_cc, State.openChunk_cc]
  omega

theorem AtChunk.step_raw (h : AtChunk inp out (turns + 1) s) (hb : s.cc + 2 ≤ s.cre)
    (hc : headerIsCompressed (listHalf inp s.cc) ≠ 1) (he : step s = chunkStart (listHalf inp s.cc) rawPayload s) :
    StepRefines inp s (chunksResult inp out (turns + 1) s) := by
  have hturns := h.turnsLeft
  rw [chunkStart, if_neg (Nat.not_lt.2 hb)] at he
  rw [chunksResult, listChunks_raw (h.recordEnd ▸ hb) hc, ← h.recordEnd]
  by_cases hshort : s.cre < s.cc + 2 + 4096
  · rw [rawPayload, if_pos (by exact hshort)] at he
    rw [if_pos hshort]
    exact .of_raise he
  have hopen : Tracks inp out (s.openChunk (headerSize (listHalf inp s.cc))) :=
    h.update rfl rfl rfl h.output h.outLength
  rw [if_neg hshort]
  rcases hopen.rawPayload (Nat.not_lt.1 hshort) with ⟨out', hl, hlen, hm⟩ | ⟨a, hl, hm⟩ <;>
    rw [hm] at he <;> rw [State.openChunk_params, State.openChunk_cc] at hl <;> rw [hl]
  · refine .of_expects he (.chunk ⟨h.update rfl rfl rfl rfl ?_, rfl, Nat.le_add_left _ _, ?_⟩)
    · rw [hlen, ← h.outLength]
      rfl
    · rw [State.tookPayload_cc, State.openChunk_cc]
      omega
  · exact .of_raise he

theorem AtChunk.step (h : AtChunk inp out turns s) : StepRefines inp s (chunksResult inp out turns s) := by
  by_cases hend : s.cre ≤ s.cc
  · obtain ⟨t, he, rfl, -, -, -⟩ := endOfRun s h.noAct h.phase hend
    rw [chunksResult, listChunks_end (h.recordEnd ▸ hend)]
    exact ⟨_, he, .inl ⟨rfl, h.output, h.outLength⟩⟩
  obtain ⟨turns, rfl⟩ : ∃ k, turns = k + 1 :=
    Nat.exists_eq_succ_of_ne_zero (by have := h.recordEnd; have := h.turnsLeft; omega)
  by_cases hcut : s.cc + 1 = s.cre
  · obtain ⟨-, hfault, -⟩ := cutOffElementsFault s h.noAct
    obtain ⟨t, he, hf⟩ := hfault h.phase hcut
    rw [chunksResult, listChunks_cut_off (hcut.trans h.recordEnd), ← h.recordEnd]
    exact .of_faulted he hf
  have hb : s.cc + 2 ≤ s.cre := by omega
  obtain ⟨-, hstep, -, -, -⟩ :=
    stepRunsTheDecodedElement s (decodeHeader (listHalf inp s.cc)) h.noAct h.canonical
  have he := hstep _ _ h.phase hb (h.read_byte (by omega)) (h.read_byte (by omega)) rfl
  rw [exec_decodeHeader] at he
  by_cases hc : headerIsCompressed (listHalf inp s.cc) = 1
  · rw [if_pos hc] at he
    exact h.step_compressed hb hc he
  · rw [if_neg hc] at he
    exact h.step_raw hb hc he

/-! ### Phase GROUP (R141, R164) -/

theorem AtGroup.step (h : AtGroup inp out turns chunkTurns s) :
    StepRefines inp s (groupsResult inp out turns chunkTurns s) := by
  have hturns := h.turnsLeft
  have hchunks := h.chunkTurnsLeft
  by_cases hend : s.ce ≤ s.cc
  · obtain ⟨he, -⟩ := endOfChunk s h.noAct h.phase hend
    rw [groupsResult, listGroups_end hend]
    exact .of_expects he (.chunk ⟨h.update rfl rfl rfl h.output h.outLength, rfl, h.inChunk.one_le_cc, hchunks⟩)
  have hlt : s.cc < s.ce := Nat.not_le.1 hend
  obtain ⟨turns, rfl⟩ : ∃ k, turns = k + 1 := Nat.exists_eq_succ_of_ne_zero (by omega)
  obtain ⟨-, -, hstep, -, -⟩ := stepRunsTheDecodedElement s (.flag (listByte inp s.cc)) h.noAct h.canonical
  have he : Machine.step s = .next (s.takeFlag (listByte inp s.cc)) :=
    hstep _ h.phase hlt (h.read_byte (hlt.trans_le h.inChunk.recordEnd)) rfl
  rw [groupsResult, listGroups_flag hlt]
  refine .of_expects he (.token (left := 8)
    ⟨h.update rfl rfl rfl h.output h.outLength, rfl, h.inChunk.takeFlag hlt _, rfl, ?_, ?_⟩)
  · rw [State.takeFlag_ce, State.takeFlag_cc]
    omega
  · rw [State.takeFlag_cc]
    omega

/-! ### Phase TOKEN (R143 to R146) -/

/-- A token that completes takes one slot and stays in the chunk. -/
theorem AtToken.tookToken {k n : Nat} {out' : List Byte} (h : AtToken inp out (left + 1) turns chunkTurns s)
    (hb : s.cc + k ≤ s.ce) (hn : n ≤ 5 * k ∨ s.difference + n ≤ 6146) (hlen : out'.length = out.length + n) :
    AtToken inp out' left turns chunkTurns (s.tookToken k n (cellsFrom 0 out')) := by
  have hslots := h.slots
  have hturns := h.turnsLeft
  have hchunks := h.chunkTurnsLeft
  refine ⟨h.update rfl rfl rfl rfl ?_, h.phase, h.inChunk.tookToken hb hn, ?_, ?_, ?_⟩
  · rw [hlen, ← h.outLength]
    rfl
  · rw [State.tookToken_bi]
    omega
  · rw [State.tookToken_ce, State.tookToken_cc]
    omega
  · rw [State.tookToken_cc]
    omega

theorem AtToken.step_literal (h : AtToken inp out (left + 1) turns chunkTurns s) (hlt : s.cc < s.ce)
    (hf : flagBit s.fb s.bi = false) :
    StepRefines inp s (tokensResult inp out (left + 1) turns chunkTurns s) := by
  have hslots := h.slots
  obtain ⟨-, -, -, hstep, -⟩ := stepRunsTheDecodedElement s (.lit (listByte inp s.cc)) h.noAct h.canonical
  have he : Machine.step s = execLit (listByte inp s.cc) s :=
    hstep _ h.phase (by omega) hlt hf (h.read_byte (hlt.trans_le h.inChunk.recordEnd)) rfl
  rw [tokensResult, listTokens_literal hlt ((flagBit_eq_false_iff _ _).1 hf), ← h.outLength]
  by_cases hfull : capacityReached s.params.outCapacity s.dc
  · rw [execLit, State.outFull, if_pos hfull] at he
    rw [if_pos hfull]
    exact .of_raise he
  · rw [execLit, State.outFull, if_neg hfull, h.output, h.outLength, cellsFrom_write] at he
    rw [if_neg hfull]
    exact .of_expects he (.token (h.tookToken hlt (.inl (by decide)) (by simp)))

/-- With its two bytes inside the chunk a copy token past the chunk's start is COPY on its 16-bit value. -/
theorem AtToken.step_eq_copyToken (h : AtToken inp out (left + 1) turns chunkTurns s) (hb : s.cc + 2 ≤ s.ce)
    (hf : flagBit s.fb s.bi = true) (hd0 : s.difference ≠ 0) :
    Machine.step s = copyToken (listHalf inp s.cc) s := by
  have hslots := h.slots
  have hcre := h.inChunk.recordEnd
  have hdiff := h.inChunk.difference_le
  have h15 : max 4 (clog2 s.difference) ≤ 15 := max_le (by decide) ((clog2_le_iff _ 15).2 (by omega))
  obtain ⟨i, hi⟩ : ∃ i, decodeToken (max 4 (clog2 s.difference)) (listHalf inp s.cc) = some i :=
    Option.ne_none_iff_exists'.1 fun hnone => by have := (decodeToken_eq_none_iff _ _).1 hnone; omega
  obtain ⟨-, -, -, -, hstep⟩ := stepRunsTheDecodedElement s i h.noAct h.canonical
  have hdec := decode_copy_littleEndianBytes hi []
  rw [listHalf, littleEndianBytes_littleEndian] at hdec
  have he := hstep _ _ _ h.phase (by omega) hb hf (le_max_left _ _) (inSplit_of_ne_zero hd0) (h.read_byte (by omega))
    (h.read_byte (by omega)) hdec
  rw [he, exec_of_decodeToken hi]

/-- A copy token inside the chunk: no split (R125), a source before the output, or the moves (R145). -/
theorem AtToken.step_copy (h : AtToken inp out (left + 1) turns chunkTurns s) (hb : s.cc + 2 ≤ s.ce)
    (hf : flagBit s.fb s.bi = true) :
    StepRefines inp s (tokensResult inp out (left + 1) turns chunkTurns s) := by
  have hbit := (flagBit_eq_true_iff _ _).1 hf
  have hdiff : out.length - s.dcs = s.difference := congrArg (· - s.dcs) h.outLength.symm
  rw [tokensResult]
  cases hhd : computeHelpData s.difference with
  | none =>
    have hz := computeHelpData_eq_none.1 hhd
    have hslots := h.slots
    rw [listTokens_undefined hb hbit (hdiff.trans hz)]
    exact .of_raise ((step_of_no_act h.noAct).trans
      (advance_of_takeUndefined (choose_copy_undefined h.phase (by omega) (by omega) hf hz) hb))
  | some hd =>
    have h15 := bitCount_le_fifteen (h.inChunk.difference_le.trans (by decide)) hhd
    have he := h.step_eq_copyToken hb hf (computeHelpData_eq_some.1 hhd).1
    rw [listTokens_copy hb hbit (hdiff ▸ hhd), ← h.outLength]
    by_cases hoff : s.dc < unpackOffset (listHalf inp s.cc) hd
    · rw [copyToken_before_output hb hhd h15 hoff] at he
      rw [if_pos hoff]
      exact .of_raise he
    rw [if_neg hoff]
    rcases h.copyToken hb hhd h15 (Nat.not_lt.1 hoff) with ⟨out', hl, hlen, hm⟩ | ⟨a, hl, hm⟩ <;>
      rw [hm] at he <;> rw [hl]
    · exact .of_expects he (.token (h.tookToken hb (unpackLength_growth _ hhd) hlen))
    · exact .of_raise he

theorem AtToken.step (h : AtToken inp out left turns chunkTurns s) :
    StepRefines inp s (tokensResult inp out left turns chunkTurns s) := by
  have hslots := h.slots
  by_cases hend : left = 0 ∨ s.ce ≤ s.cc
  · obtain ⟨he, -⟩ := endOfGroup s h.noAct h.phase (hend.imp_left (by omega))
    rw [tokensResult, listTokens_end hend]
    exact .of_expects he (.group ⟨h.update rfl rfl rfl h.output h.outLength, rfl, h.inChunk.enterPhase _,
      h.turnsLeft, h.chunkTurnsLeft⟩)
  obtain ⟨left, rfl⟩ : ∃ k, left = k + 1 := Nat.exists_eq_succ_of_ne_zero (by omega)
  have hlt : s.cc < s.ce := by omega
  cases hf : flagBit s.fb s.bi
  · exact h.step_literal hlt hf
  by_cases hcut : s.cc + 1 = s.ce
  · obtain ⟨-, -, hfault⟩ := cutOffElementsFault s h.noAct
    obtain ⟨t, he, hft⟩ := hfault h.phase (by omega) hcut hf
    rw [tokensResult, listTokens_cut_off hcut ((flagBit_eq_true_iff _ _).1 hf)]
    exact .of_faulted he hft
  · exact h.step_copy (by omega) hf

/-! ### The run -/

theorem Expects.step (h : Expects inp s r) : StepRefines inp s r := by
  cases h with
  | signature hp h => exact h.step_signature hp
  | chunk h => exact h.step
  | group h => exact h.step
  | token h => exact h.step

theorem Expects.running (h : Expects inp s r) : s.running = true := by
  cases h with
  | signature hp _ => exact running_of_phase (.inl hp)
  | chunk h => exact running_of_phase (.inr (.inl h.phase))
  | group h => exact running_of_phase (.inr (.inr (.inl h.phase)))
  | token h => exact running_of_phase (.inr (.inr (.inr h.phase)))

theorem Expects.ce_le_cre (h : Expects inp s r) (hp : s.phase = .group ∨ s.phase = .token) : s.ce ≤ s.cre := by
  cases h with
  | signature hp' _ => simp [hp'] at hp
  | chunk h => simp [h.phase] at hp
  | group h => exact h.inChunk.recordEnd
  | token h => exact h.inChunk.recordEnd

theorem Expects.noAct (h : Expects inp s r) : s.host = [] := by
  cases h with
  | signature _ h => exact h.noAct
  | chunk h => exact h.noAct
  | group h => exact h.noAct
  | token h => exact h.noAct

/-- Settles O49: from the signature the machine expects what the listing returns, and every step that does not show it
lowers the count of steps left. -/
theorem runComputesTheListing : Obligations.RunComputesTheListing := by
  intro s inp hp hh hm hin hcre hdc hout
  rw [← hcre, ← stepsLeft_sig hp]
  refine run_reaches (P := fun t => Expects inp t (decompress s.params.outCapacity inp)) (fun u hu => ?_) s
    (.signature hp ⟨hh, hm, hin, hcre, hout, hdc⟩)
  obtain ⟨t, he, hnext⟩ := hu.step
  exact ⟨t, he, stepsLeft_advance_lt hu.running hu.ce_le_cre ((step_of_no_act hu.noAct).symm.trans he), hnext⟩

end Sys2Proof.Machine
end

section
/-! Faults (60_exceptions.md): a copy token without help data raises (R204), a run that enters FAULT names a reason
(R206), and rest is left by START and a hardware reset alone (R208). -/

namespace Sys2Proof.Machine

open Sys2Proof

/-! ### Raising UndefinedHelpData (R204, R125) -/

/-- Settles O20: where the chunk has decoded no byte `difference` is 0, so the sequencer finds no split and raises. -/
theorem copyFirstInItsChunkFaults : Obligations.CopyFirstInItsChunkFaults := by
  intro s hh hp hbi hb hf hdc
  have hz : s.difference = 0 := Nat.sub_eq_zero_of_le hdc.le
  have hc := choose_copy_undefined hp hbi (by omega) hf hz
  exact ⟨_, (step_of_no_act hh).trans (advance_of_takeUndefined hc hb), s.faulted_raise _ _⟩

/-! ### Entering FAULT (R206) -/

theorem phase_ne_fault_of_running {s : State} (hrun : s.running = true) : s.phase ≠ .fault := fun hp => by
  simp [State.running, State.atRest, hp] at hrun

/-- Completing an element never enters FAULT. -/
theorem Completes.phase_ne_fault {s t : State} {c : Context} (h : Completes s c t) (hs : s.phase ≠ .fault) :
    t.phase ≠ .fault := by
  cases h with
  | signature _ | compressed _ _ _ | raw _ _ | flag _ => simp
  | literal _ | copy _ _ _ => exact hs

/-- In a run the hardware's own step enters FAULT only by raising. -/
theorem raises_of_advance_to_fault {s t : State} (hrun : s.running = true) (h : advance s = .next t)
    (ht : t.phase = .fault) : Raises s t := by
  have hs := phase_ne_fault_of_running hrun
  rcases advance_next h with hr | ⟨-, rfl⟩ | ⟨p, hc, rfl⟩ | ⟨_, _, _, -, -, hcomp⟩
  · exact hr
  · exact absurd ht hs
  · rcases choose_moveTo hc with ⟨-, -, rfl⟩ | ⟨-, -, rfl⟩ | ⟨-, -, rfl⟩ <;> cases ht
  · exact absurd ht (hcomp.phase_ne_fault hs)

theorem step_of_hardReset {s : State} {rest : List HostAct} (hh : s.host = .hardReset :: rest) :
    step s = .next { s with host := rest }.hardReset := step_of_taken hh rfl

/-- Settles O40: a hardware reset ends in IDLE, so the step is the hardware's own and raises. -/
theorem faultEntryNamesAReason : Obligations.FaultEntryNamesAReason := by
  intro s t hrun h ht
  have hreset : ∀ rest, s.host ≠ .hardReset :: rest := fun rest hh => by
    cases (step_of_hardReset hh).symm.trans h
    cases ht
  obtain ⟨rest, hadv⟩ := step_next_of_running hrun hreset h
  obtain ⟨-, -, -, hstatus⟩ := statusAndFaultCodes.1 t
  obtain ⟨r, info, hr, rfl⟩ := raises_of_advance_to_fault (s := { s with host := rest }) hrun hadv ht
  exact ⟨hr, hstatus.2 ht, rfl, rfl⟩

/-! ### Leaving rest (R208, R232) -/

theorem atRest_eq_true {s : State} : s.atRest = true ↔ s.phase = .idle ∨ s.phase = .done ∨ s.phase = .fault := by
  unfold State.atRest
  cases s.phase <;> decide

theorem advance_of_atRest {s : State} (hr : s.atRest = true) : advance s = .next s := by
  simp only [advance, fetch, choose_of_rest (atRest_eq_true.1 hr)]

/-- The host's writes of IN and of `IN_LEN` leave the phase and the fault registers alone. -/
theorem hostEffect_keeps_rest {a : HostAct} {s t : State} (hstart : a ≠ .writeStart 1) (hreset : a ≠ .hardReset)
    (h : hostEffect a s = .taken t) :
    t.phase = s.phase ∧ t.faultReason = s.faultReason ∧ t.faultInfo = s.faultInfo := by
  rcases hostEffect_cases a s with ⟨he, -⟩ | ⟨_, _, -, -, he⟩ | ⟨_, _, -, -, he⟩ | ⟨_, -, -, he⟩ |
    ⟨ha, -⟩ | ⟨ha, -⟩ | ⟨ha, -⟩
  · cases he.symm.trans h
  · cases he.symm.trans h
    exact ⟨rfl, rfl, rfl⟩
  · cases he.symm.trans h
  · cases he.symm.trans h
    exact ⟨rfl, rfl, rfl⟩
  · exact absurd ha hstart
  · exact absurd ha hstart
  · exact absurd ha hreset

/-- Settles O32: at rest the hardware keeps the state, and of the host's acts only START and a hardware reset reach the
phase and the fault registers. -/
theorem restIsLeftOnlyByStartOrReset : Obligations.RestIsLeftOnlyByStartOrReset := by
  intro s t hrun hstart hreset h
  rcases step_next h with ⟨rest, hadv⟩ | ⟨a, rest, hh, hu⟩
  · have hr := running_eq_false.1 hrun
    cases (advance_of_atRest (s := { s with host := rest }) hr).symm.trans hadv
    exact ⟨rfl, rfl, rfl⟩
  · exact hostEffect_keeps_rest (s := { s with host := rest }) (fun ha => hstart rest (ha ▸ hh))
      (fun ha => hreset rest (ha ▸ hh)) hu

end Sys2Proof.Machine
end

section
/-! Start, reset and the size of the output (70_reset_and_hazards.md): what START and a hardware reset leave (R230, R231,
R232), and the bound on the output of a run that ends in DONE (R240). -/

namespace Sys2Proof.Machine

open Sys2Proof

/-! ### START (R230, R231) -/

/-- The input lengths an implementation accepts (R8). -/
theorem inLenTooLarge_eq_false {s : State} :
    s.inLenTooLarge = false ↔ ∀ m, s.params.inLenMax = some m → s.inLen ≤ m := by
  unfold State.inLenTooLarge
  cases s.params.inLenMax <;> simp

/-- START at rest: refused for a length the implementation does not accept (D4), else the start sequence. -/
theorem hostEffect_start {s : State} (hr : s.atRest = true) :
    hostEffect (.writeStart 1#1) s = if s.inLenTooLarge then .refuses .inLenTooLarge else .taken s.startRun :=
  if_pos ⟨rfl, hr⟩

theorem step_of_start {s : State} {rest : List HostAct} (hh : s.host = .writeStart 1#1 :: rest)
    (hr : s.atRest = true) :
    step s = if s.inLenTooLarge then .refused .inLenTooLarge else .next { s with host := rest }.startRun := by
  have heffect := hostEffect_start (s := { s with host := rest }) hr
  have hlen : ({ s with host := rest } : State).inLenTooLarge = s.inLenTooLarge := rfl
  simp only [step, hh, heffect, hlen]
  cases s.inLenTooLarge
  · rfl
  · rfl

/-- Settles O26: an accepted length makes the step the start sequence, whose fields are the values of R230. -/
theorem startSequence : Obligations.StartSequence := by
  intro s rest hh hp hlen
  refine ⟨{ s with host := rest }.startRun, ?_, rfl, rfl, rfl, rfl, rfl, rfl, rfl, rfl, rfl, rfl, rfl⟩
  rw [step_of_start hh (atRest_eq_true.2 hp), inLenTooLarge_eq_false.2 hlen]
  rfl

/-- What the start sequence takes from the state before it: the parameters, the input side and the model's own fields. -/
theorem State.startRun_congr {s s' : State} (params : s.params = s'.params) (inMem : s.inMem = s'.inMem)
    (inLen : s.inLen = s'.inLen) (host : s.host = s'.host) (freeIdx : s.freeIdx = s'.freeIdx) :
    s.startRun = s'.startRun := by
  cases s
  cases s'
  cases params
  cases inMem
  cases inLen
  cases host
  cases freeIdx
  rfl

/-- Settles O27: the test of the length and the start sequence read only what the two machines agree on. -/
theorem nothingCarriesOver : Obligations.NothingCarriesOver := by
  intro s s' rest hh hh' hrun hrun' hparams hin hlen hfree
  have htest : s.inLenTooLarge = s'.inLenTooLarge := by simp only [State.inLenTooLarge, hparams, hlen]
  have hstart : { s with host := rest }.startRun = { s' with host := rest }.startRun :=
    State.startRun_congr hparams hin hlen rfl hfree
  rw [step_of_start hh (running_eq_false.1 hrun), step_of_start (hh'.trans hh) (running_eq_false.1 hrun'), htest,
    hstart]

/-! ### A hardware reset (R232, R36) -/

/-- Settles O31: the step is the reset, which leaves IDLE and no fault reason. -/
theorem hardwareReset : Obligations.HardwareReset :=
  fun _ _ hh => ⟨_, step_of_hardReset hh, rfl, rfl, rfl, rfl, rfl, rfl⟩

/-! ### The size of the output (R240) -/

theorem outLen_of_done {s : State} (h : s.phase = .done) : s.outLen = s.dc := by simp only [State.outLen, h]

/-- Settles O44: the invariant holds after the step, and in DONE it bounds `dc` by the bytes read, which are the whole
record. -/
theorem outputSizeIsBounded : Obligations.OutputSizeIsBounded := by
  intro s t hinv _ _ h ht
  obtain ⟨-, -, hexp, -, hcc⟩ := (phaseInv_done ht).1 (stepKeepsTheInvariant s t hinv h).phase
  rw [outLen_of_done ht, ← hcc]
  exact hexp

end Sys2Proof.Machine
end

section
/-! Refused acts of the host (20_memory.md section on host accesses; 92_eei_decisions.md D4, 93_implementation_defined.md
U9): where the spec gives an act no behaviour, the step is the act's refusal (log 7, log 8). -/

namespace Sys2Proof.Machine

open Sys2Proof

theorem step_of_refuses {s : State} {a : HostAct} {rest : List HostAct} {r : Refusal} (hh : s.host = a :: rest)
    (he : hostEffect a { s with host := rest } = .refuses r) : step s = .refused r := by
  simp only [step, hh, he]

/-- IN may not be written before the run ends (log 7). -/
theorem hostEffect_writeIn_of_running {s : State} (hrun : s.running = true) (x : Nat) (b : Byte) :
    hostEffect (.writeIn x b) s = .refuses .hostTouchedInput :=
  if_neg (Bool.eq_false_iff.1 (running_eq_true.1 hrun))

/-- The input lengths an implementation does not accept (R8). -/
theorem inLenTooLarge_of_lt {s : State} {m : Nat} (hm : s.params.inLenMax = some m) (hlt : m < s.inLen) :
    s.inLenTooLarge = true := by
  simp only [State.inLenTooLarge, hm, hlt, decide_true]

/-- Settles O30: a run refuses the write of IN, and at rest START refuses a length above `IN_LEN_MAX`. -/
theorem refusedHostActs : Obligations.RefusedHostActs := by
  intro s rest
  refine ⟨fun x b hrun hh => ?_, fun m hrun hh hm hlt => ?_⟩
  · exact step_of_refuses hh (hostEffect_writeIn_of_running (s := { s with host := rest }) hrun x b)
  · rw [step_of_start hh (running_eq_false.1 hrun), if_pos (inLenTooLarge_of_lt hm hlt)]

end Sys2Proof.Machine
end
